-- ==== Sys2Proof/Word.lean ====
section
/-! DEFINITION. The word and byte types (00_scope.md R9, R10) and the names of the hash algorithms (30_encoding.md R103). -/

namespace Sys2Proof

/-- A 32-bit register or command word (R9). -/
abbrev Word := BitVec 32

/-- A byte: one element of IBUF or OBUF, one ASCII character (R10, R12). -/
abbrev Byte := BitVec 8

/-- The hash algorithms a command can select (R103: ALG 0, 1, 2; ALG 3 is reserved and no algorithm). -/
inductive Alg where
  | sha1
  | sha256
  | sha512
  deriving DecidableEq, Repr

end Sys2Proof
end

