-- ==== Sys2Proof/Config.lean ====
section
/-! DEFINITION. What an implementation of the block fixes: the parameters of 00_scope.md R8 and 20_memory.md R82. -/

namespace Sys2Proof

/-- The block's parameters. The spec says a model takes them as arguments (R8, R82); they are held in
`State.cfg`, so that every statement about every state is a statement about every choice of them (log 1, log 2).
No step changes them. -/
structure Config where
  /-- `B32HOTP_BASE` (R82): where the window sits in the host system's address space. -/
  base     : Nat
  /-- `IBUF_SIZE` (R8). -/
  ibufSize : Nat
  /-- `OBUF_SIZE` (R8). -/
  obufSize : Nat
  deriving DecidableEq, Repr

/-- R8's constraints: 64 ≤ IBUF_SIZE ≤ 2560 and 8·⌈IBUF_SIZE/5⌉ ≤ OBUF_SIZE ≤ 4096. R82 puts no constraint on the base. -/
def Config.wf (c : Config) : Bool :=
  decide (64 ≤ c.ibufSize) && decide (c.ibufSize ≤ 2560) &&
    decide (8 * ((c.ibufSize + 4) / 5) ≤ c.obufSize) && decide (c.obufSize ≤ 4096)

/-- R8's reference values of the sizes. DESIGN CHOICE (log 2): base 0, since R82 leaves the base to the platform. -/
def Config.reference : Config := { base := 0, ibufSize := 320, obufSize := 512 }

end Sys2Proof
end

