-- ==== Sys2Proof/Machine/State.lean ====
section
/-! DEFINITION. The state of one B32HOTP instance (10_state.md R30 to R52), the host's moves and the answers it gets
(20_memory.md R70 to R74), the model faults (60_exceptions.md R230) and the state after reset (R52). -/

namespace Sys2Proof.Machine

/-- The ten registers (R30). -/
inductive Reg where
  | cmd
  | status
  | errinfo
  | inlen
  | outlen
  | ctrLo
  | ctrHi
  | value
  | offset
  | code
  deriving DecidableEq, Repr

/-- A byte buffer: (index, byte) pairs, indexes strictly rising. An index that is not listed holds an unspecified
byte (R45, R46), and reads as no value (log 5). -/
abbrev Memory := List Host.Cell

/-- The architectural errors of a command (R214), with what InvalidCharacter identifies (R215). -/
inductive CmdError where
  | invalidCharacter (char : Byte) (index : Nat)
  | invalidDigits
  | invalidLength
  | lengthError
  | illegalCommand
  deriving DecidableEq, Repr

/-- The members of the fault set (R48, R230). -/
inductive FaultKind where
  /-- The engine reads an unspecified IBUF byte. -/
  | unwrittenInput
  /-- The host reads an unspecified IBUF or OBUF byte. -/
  | unspecifiedRead
  /-- A host access, other than a STATUS read, while BUSY = 1 (R255, R256). -/
  | hostHazard
  deriving DecidableEq, Repr

/-- The fault set of R48: which model faults have been recorded. -/
structure FaultSet where
  unwrittenInput  : Bool
  unspecifiedRead : Bool
  hostHazard      : Bool
  deriving DecidableEq, Repr

/-- One move of the host (R14, R113). Addresses are the host system's; the block's offsets are counted from
`Config.base` (R82). `width` is in bits. -/
inductive HostMove where
  /-- One bus read. -/
  | read (addr width : Nat)
  /-- One bus write. An 8-bit write carries its byte in bits 7:0 of `data` (log 10). -/
  | write (addr width : Nat) (data : Word)
  /-- WAIT (R113): read STATUS until BUSY = 0. Each turn the host gets is one STATUS read. -/
  | wait
  /-- The platform asserts reset (R250). -/
  | reset
  deriving DecidableEq, Repr

/-- What one host access is answered. -/
inductive Response where
  /-- A register read: the whole register (R71). -/
  | word (w : Word)
  /-- A buffer read: one byte (R72). -/
  | byte (b : Byte)
  /-- A write that completed. -/
  | done
  /-- The error response of R73. -/
  | busError
  /-- The access was a hazard (R255, R256): what the chip answers is not specified, and no data is given. -/
  | hazard
  /-- The byte read is unspecified (R46): what the chip answers is not specified, and no data is given. -/
  | unspecified
  /-- The address lies outside the window: the model gives the access no meaning (R48, log 7). -/
  | noMeaning
  deriving DecidableEq, Repr

/-- Whose step comes next while a command is pending (R83, R211): the spec leaves it open. -/
inductive Turn where
  | host
  | engine
  deriving DecidableEq, Repr

/-- One B32HOTP instance (log 15), with the host that drives it. -/
structure State where
  /-- The parameters (R8, R82); no step changes them (log 1). -/
  cfg       : Config
  /-- CMD (R32). -/
  cmd       : Word
  /-- STATUS (R33). -/
  status    : Word
  /-- ERRINFO (R35). -/
  errinfo   : Word
  /-- INLEN (R36). -/
  inlen     : Word
  /-- OUTLEN (R37). -/
  outlen    : Word
  /-- CTR_LO (R38). -/
  ctrLo     : Word
  /-- CTR_HI (R38). -/
  ctrHi     : Word
  /-- VALUE (R39). -/
  value     : Word
  /-- OFFSET (R40). -/
  offset    : Word
  /-- CODE (R41). -/
  code      : Word
  /-- IBUF (R43). -/
  ibuf      : Memory
  /-- OBUF (R44). -/
  obuf      : Memory
  /-- The fault set (R48). -/
  faults    : FaultSet
  /-- The refusal mark (R48). -/
  refusal   : Bool
  /-- MODEL's own (log 4): the host's moves still to come, the next one first. -/
  host      : List HostMove
  /-- MODEL's own (log 4): the answers the host got, newest first. -/
  responses : List Response
  /-- MODEL's own (log 3): whose turn each coming step is while BUSY = 1; when it is used up, the engine's. -/
  schedule  : List Turn
  deriving DecidableEq, Repr

/-- Why a run stops. -/
inductive Fault where
  /-- The model fault UnwrittenInput (R230), raised by B32ENC, B32DEC, HOTPTRUNC and HOTPCODE when a byte of
  IBUF they read is unspecified. "The model stops the run": safe. `stopped` is the state with the fault entered
  in its fault set, and nothing else changed (log 6). -/
  | unwrittenInput (stopped : State)
  deriving DecidableEq, Repr

/-- Why the model has no meaning for an instruction. -/
inductive Refusal where
  /-- The host's form of an instruction that has no meaning yet; `mnemonic` as opcode_table.json spells it. Safe.
  No arm of `exec` answers it: every command has its meaning. -/
  | notModelled (mnemonic : String)
  deriving DecidableEq, Repr

/-- The state right after reset (R52, R250): every register zero, every buffer byte unspecified, no command
pending. The parameters are R8's reference values (log 1, log 2); the model's own fields are empty (log 3, log 4). -/
def State.reset : State where
  cfg := Config.reference
  cmd := 0
  status := 0
  errinfo := 0
  inlen := 0
  outlen := 0
  ctrLo := 0
  ctrHi := 0
  value := 0
  offset := 0
  code := 0
  ibuf := []
  obuf := []
  faults := { unwrittenInput := false, unspecifiedRead := false, hostHazard := false }
  refusal := false
  host := []
  responses := []
  schedule := []

end Sys2Proof.Machine
end

