-- ==== Sys2Proof/Machine/Flags.lean ====
section
/-! DEFINITION. STATUS and ERRINFO: the values issue and completion write (10_state.md R33 to R35, 60_exceptions.md
R210 to R214). STATUS is the block's only flag register (R34). -/

namespace Sys2Proof.Machine

/-- BUSY=1, DONE=0, ERR=0 (R210). -/
def statusBusy : Word := 0x1

/-- BUSY=0, DONE=1, ERR=0 (R213). -/
def statusSuccess : Word := 0x2

/-- BUSY=0, DONE=1, ERR=1 (R212). -/
def statusError : Word := 0x6

/-- STATUS.BUSY, bit 0 (R33): a command is pending. -/
def State.busy (s : State) : Bool := s.status.getLsbD 0

/-- STATUS.DONE, bit 1 (R33). -/
def State.doneFlag (s : State) : Bool := s.status.getLsbD 1

/-- STATUS.ERR, bit 2 (R33). -/
def State.errFlag (s : State) : Bool := s.status.getLsbD 2

/-- The ECODE of an error (R214). -/
def ecode : CmdError → BitVec 4
  | .invalidCharacter _ _ => 1
  | .invalidDigits => 2
  | .invalidLength => 3
  | .lengthError => 4
  | .illegalCommand => 5

/-- The ECHAR of an error: the offending byte for InvalidCharacter, otherwise 0 (R35, R214). -/
def echar : CmdError → Byte
  | .invalidCharacter c _ => c
  | _ => 0

/-- The EINDEX of an error: the offending byte's IBUF index for InvalidCharacter, otherwise 0 (R35, R214). -/
def eindex : CmdError → BitVec 16
  | .invalidCharacter _ i => BitVec.ofNat 16 i
  | _ => 0

/-- ERRINFO after an error: EINDEX, ECHAR, four zero bits, ECODE, most significant first (R35, R212). -/
def errinfoOf (e : CmdError) : Word :=
  (eindex e ++ echar e ++ (0 : BitVec 4) ++ ecode e).cast (by decide)

end Sys2Proof.Machine
end

