-- ==== Sys2Proof/Machine/Ops.lean ====
section
/-! DEFINITION. The named operations over buffers, registers and marks, and the one way a command issues, ends in an
error, or ends in success (00_scope.md R11, 10_state.md R45, R46, 20_memory.md R71, R74, 60_exceptions.md R210 to R213). -/

namespace Sys2Proof.Machine

/-! ### Buffers -/

/-- The canonical form of a buffer: indexes strictly rising. An entry holds a byte and an unlisted index holds
none, so no entry equals what an unlisted index reads as. -/
abbrev Memory.wf (m : Memory) : Prop := m.Pairwise fun a b => a.1 < b.1

/-- `MemRead(buffer, i, 1)` (R11): the byte at index `i`, none when it is unspecified (R46). -/
def Memory.read : Memory → Nat → Option Byte
  | [], _ => none
  | (k, b) :: rest, i => if k = i then some b else Memory.read rest i

/-- `MemWrite(buffer, i, 1, b)` (R11). -/
def Memory.write : Memory → Nat → Byte → Memory
  | [], i, b => [(i, b)]
  | (k, v) :: rest, i, b =>
    if i < k then (i, b) :: (k, v) :: rest
    else if i = k then (i, b) :: rest
    else (k, v) :: Memory.write rest i b

/-- The bytes at indexes `i`, …, `i + n - 1`, none when one of them is unspecified. -/
def Memory.readBytes (m : Memory) : Nat → Nat → Option (List Byte)
  | _, 0 => some []
  | i, n + 1 =>
    match m.read i, Memory.readBytes m (i + 1) n with
    | some b, some bs => some (b :: bs)
    | _, _ => none

/-- The buffer that holds the bytes `bs` from index `i` on, and no other specified byte. -/
def Memory.ofBytes : Nat → List Byte → Memory
  | _, [] => []
  | i, b :: bs => (i, b) :: Memory.ofBytes (i + 1) bs

/-! ### Registers -/

/-- The bits of a register that belong to a field; the others are hardwired zero (R32 to R41, log 11). -/
def Reg.mask : Reg → Word
  | .cmd => 0xFFFFFFFF
  | .status => 0x00000007
  | .errinfo => 0xFFFFFF0F
  | .inlen => 0x0000FFFF
  | .outlen => 0x0000FFFF
  | .ctrLo => 0xFFFFFFFF
  | .ctrHi => 0xFFFFFFFF
  | .value => 0x7FFFFFFF
  | .offset => 0x0000000F
  | .code => 0x07FFFFFF

/-- The host may write the register (RW); the others ignore host writes (RO) (R32 to R41, R74). -/
def Reg.hostWritable : Reg → Bool
  | .cmd => true
  | .status => false
  | .errinfo => false
  | .inlen => true
  | .outlen => false
  | .ctrLo => true
  | .ctrHi => true
  | .value => true
  | .offset => false
  | .code => false

/-- The storage of a register. -/
def State.stored (s : State) : Reg → Word
  | .cmd => s.cmd
  | .status => s.status
  | .errinfo => s.errinfo
  | .inlen => s.inlen
  | .outlen => s.outlen
  | .ctrLo => s.ctrLo
  | .ctrHi => s.ctrHi
  | .value => s.value
  | .offset => s.offset
  | .code => s.code

/-- `x[NAME]` (R11): the whole register, its hardwired-zero bits as 0 (R71). -/
def State.readReg (s : State) (r : Reg) : Word := s.stored r &&& r.mask

/-- `x[NAME] <- v` (R11): the register keeps the bits of its fields, hardwired-zero bits are dropped (R71, R74). -/
def State.writeReg (s : State) (r : Reg) (v : Word) : State :=
  match r with
  | .cmd => { s with cmd := v &&& Reg.mask .cmd }
  | .status => { s with status := v &&& Reg.mask .status }
  | .errinfo => { s with errinfo := v &&& Reg.mask .errinfo }
  | .inlen => { s with inlen := v &&& Reg.mask .inlen }
  | .outlen => { s with outlen := v &&& Reg.mask .outlen }
  | .ctrLo => { s with ctrLo := v &&& Reg.mask .ctrLo }
  | .ctrHi => { s with ctrHi := v &&& Reg.mask .ctrHi }
  | .value => { s with value := v &&& Reg.mask .value }
  | .offset => { s with offset := v &&& Reg.mask .offset }
  | .code => { s with code := v &&& Reg.mask .code }

/-! ### Marks -/

/-- A fault enters the fault set; it is never cleared (R48, R230). -/
def FaultSet.insert (f : FaultSet) : FaultKind → FaultSet
  | .unwrittenInput => { f with unwrittenInput := true }
  | .unspecifiedRead => { f with unspecifiedRead := true }
  | .hostHazard => { f with hostHazard := true }

/-- Membership in the fault set. -/
def FaultSet.has (f : FaultSet) : FaultKind → Bool
  | .unwrittenInput => f.unwrittenInput
  | .unspecifiedRead => f.unspecifiedRead
  | .hostHazard => f.hostHazard

/-- The fault is recorded, and nothing else changes. -/
def State.recordFault (s : State) (k : FaultKind) : State := { s with faults := s.faults.insert k }

/-- The refusal mark is set, and nothing else changes (R48). -/
def State.recordRefusal (s : State) : State := { s with refusal := true }

/-! ### Issue, error completion, success completion, reset -/

/-- Issue (R210): CMD holds the word, STATUS = 0x1, ERRINFO = 0; nothing else changes. -/
def State.issue (s : State) (w : Word) : State :=
  { s with cmd := w, status := statusBusy, errinfo := 0 }

/-- Error completion (R212): STATUS = 0x6, ERRINFO says which error; every other register and buffer keeps its
value. This is the one way an error is taken; there is no trap and no return from one (R223). -/
def State.completeError (s : State) (e : CmdError) : State :=
  { s with status := statusError, errinfo := errinfoOf e }

/-- The end of success completion (R213): STATUS = 0x2, after the rule's commit writes. ERRINFO is not written. -/
def State.completeSuccess (s : State) : State := { s with status := statusSuccess }

/-- A command's commit of its OBUF result (R44, R213): OBUF[0..n) hold the bytes, every higher byte becomes
unspecified, OUTLEN is their number. -/
def State.commitOutput (s : State) (out : List Byte) : State :=
  ({ s with obuf := Memory.ofBytes 0 out }).writeReg .outlen (BitVec.ofNat 32 out.length)

/-- The commit of a truncation (R173): OFFSET and VALUE. -/
def State.commitTrunc (s : State) (off : Nat) (masked : Word) : State :=
  (s.writeReg .offset (BitVec.ofNat 32 off)).writeReg .value masked

/-- The commit of a fold (R175): CODE. -/
def State.commitCode (s : State) (code : Nat) : State := s.writeReg .code (BitVec.ofNat 32 code)

/-- The model fault UnwrittenInput (R230): the run stops, with the fault entered in the fault set. -/
def stopUnwritten (s : State) : Host.Outcome State Fault Refusal :=
  .fault (.unwrittenInput (s.recordFault .unwrittenInput))

/-- The platform's reset (R250, R251): registers zero, buffers unspecified, no pending command. The fault set and
the refusal mark stay (R48), and so do the parameters and what belongs to the host. -/
def State.platformReset (s : State) : State :=
  { s with
    cmd := 0, status := 0, errinfo := 0, inlen := 0, outlen := 0, ctrLo := 0, ctrHi := 0,
    value := 0, offset := 0, code := 0, ibuf := [], obuf := [] }

end Sys2Proof.Machine
end

