-- ==== Sys2Proof/Machine/Bus.lean ====
section
/-! DEFINITION. The host's side: the address map and the accesses (20_memory.md R70 to R74, R80), the hazards
(70_reset_and_hazards.md R255, R256), WAIT (30_encoding.md R113) and reset (R250). -/

namespace Sys2Proof.Machine

/-- The offset of a register in the window (R32 to R41). -/
def Reg.offsetInWindow : Reg → Nat
  | .cmd => 0x000
  | .status => 0x004
  | .errinfo => 0x008
  | .inlen => 0x00C
  | .outlen => 0x010
  | .ctrLo => 0x014
  | .ctrHi => 0x018
  | .value => 0x01C
  | .offset => 0x020
  | .code => 0x024

/-- The register at an offset; none where the register window holds none (R42). -/
def regAt : Nat → Option Reg
  | 0x000 => some .cmd
  | 0x004 => some .status
  | 0x008 => some .errinfo
  | 0x00C => some .inlen
  | 0x010 => some .outlen
  | 0x014 => some .ctrLo
  | 0x018 => some .ctrHi
  | 0x01C => some .value
  | 0x020 => some .offset
  | 0x024 => some .code
  | _ => none

/-- Where IBUF lies in the window (R70). -/
def ibufWindow : Nat := 0x1000

/-- Where OBUF lies in the window (R70). -/
def obufWindow : Nat := 0x2000

/-- The window's size: 14-bit byte addresses (R70). -/
def windowSize : Nat := 0x4000

/-- What an access of the window reaches. -/
inductive Target where
  | reg (r : Reg)
  | ibuf (i : Nat)
  | obuf (i : Nat)
  deriving DecidableEq, Repr

/-- The target of an access at an offset of the window; none is a bus error (R70, R73): a reserved range, a wrong
width, a misaligned register access, a write to OBUF. An access lies where its first byte lies (log 9). -/
def busTarget (cfg : Config) (isWrite : Bool) (off width : Nat) : Option Target :=
  if off < 0x28 then
    if width = 32 then (regAt off).map .reg else none
  else if ibufWindow ≤ off ∧ off < ibufWindow + cfg.ibufSize then
    if width = 8 then some (.ibuf (off - ibufWindow)) else none
  else if obufWindow ≤ off ∧ off < obufWindow + cfg.obufSize then
    if width = 8 ∧ isWrite = false then some (.obuf (off - obufWindow)) else none
  else none

/-- The offset of a system address in the block's window, none outside it (R82). -/
def windowOffset (cfg : Config) (addr : Nat) : Option Nat :=
  if cfg.base ≤ addr ∧ addr < cfg.base + windowSize then some (addr - cfg.base) else none

/-- The host gets an answer. -/
def State.respond (s : State) (r : Response) : State := { s with responses := r :: s.responses }

/-- A host access while BUSY that has no defined behaviour: the fault HostHazard is recorded, and the access has
no other effect (R255, R256). -/
def hostHazard (s : State) : State := (s.recordFault .hostHazard).respond .hazard

/-- An access outside the window: the model gives it no meaning (R48, log 7). -/
def hostNoMeaning (s : State) : State := s.recordRefusal.respond .noMeaning

/-- A bus error: an error response, and no block state changes (R73). -/
def hostBusError (s : State) : State := s.respond .busError

/-- The host reads one byte of a buffer; an unspecified one is the fault UnspecifiedRead, never a value (R46, R257). -/
def hostReadByte (m : Memory) (i : Nat) (s : State) : State :=
  match m.read i with
  | some b => s.respond (.byte b)
  | none => (s.recordFault .unspecifiedRead).respond .unspecified

/-- A read of a target; while BUSY only a STATUS read is defined (R71, R72, R255). -/
def hostReadTarget (s : State) : Target → State
  | .reg .status => s.respond (.word (s.readReg .status))
  | .reg r => if s.busy then hostHazard s else s.respond (.word (s.readReg r))
  | .ibuf i => if s.busy then hostHazard s else hostReadByte s.ibuf i s
  | .obuf i => if s.busy then hostHazard s else hostReadByte s.obuf i s

/-- A write to a register while idle: CMD issues a command (R210), a read-only register ignores it (R74), another
register keeps the bits of its fields (R71, R74). -/
def hostWriteReg (s : State) (r : Reg) (data : Word) : State :=
  if r = .cmd then s.issue data
  else if r.hostWritable then s.writeReg r data
  else s

/-- A write to a target; while BUSY every write is a hazard (R255, R256). OBUF is no target of a write (R73). -/
def hostWriteTarget (s : State) (data : Word) (t : Target) : State :=
  if s.busy then hostHazard s
  else
    match t with
    | .reg r => (hostWriteReg s r data).respond .done
    | .ibuf i => ({ s with ibuf := s.ibuf.write i (data.extractLsb' 0 8) }).respond .done
    | .obuf _ => hostBusError s

/-- One bus read. A bus error is one in every state, and never a hazard (R255). -/
def hostRead (s : State) (addr width : Nat) : State :=
  match windowOffset s.cfg addr with
  | none => hostNoMeaning s
  | some off =>
    match busTarget s.cfg false off width with
    | none => hostBusError s
    | some t => hostReadTarget s t

/-- One bus write. -/
def hostWrite (s : State) (addr width : Nat) (data : Word) : State :=
  match windowOffset s.cfg addr with
  | none => hostNoMeaning s
  | some off =>
    match busTarget s.cfg true off width with
    | none => hostBusError s
    | some t => hostWriteTarget s data t

/-- One turn of WAIT (R113): a STATUS read; while BUSY the loop goes on. -/
def hostWait (s : State) : State :=
  if s.busy then { hostReadTarget s (.reg .status) with host := .wait :: s.host }
  else hostReadTarget s (.reg .status)

/-- One move of the host. -/
def hostMove (s : State) : HostMove → State
  | .read addr width => hostRead s addr width
  | .write addr width data => hostWrite s addr width data
  | .wait => hostWait s
  | .reset => s.platformReset

/-- The host's turn: its next move, or nothing when it has none (log 8). -/
def hostTurn (s : State) : State :=
  match s.host with
  | [] => s
  | m :: rest => hostMove { s with host := rest } m

end Sys2Proof.Machine
end

