-- ==== Sys2Proof/Syntax.lean ====
section
/-! DEFINITION. The six commands of the block (30_encoding.md R105, R106), one constructor per row of opcode_table.json. -/

namespace Sys2Proof

/-- A decoded command. Every operand other than DIGITS and ALG is implicit (R111). -/
inductive Instr where
  /-- B32ENC (R134). -/
  | b32enc
  /-- B32DEC (R137). -/
  | b32dec
  /-- HOTPMSG (R171). -/
  | hotpmsg
  /-- HOTPTRUNC (R173). -/
  | hotptrunc (alg : Alg)
  /-- HOTPFOLD (R175). `digits` is the digit count itself (R102, log 14). -/
  | hotpfold (digits : Nat)
  /-- HOTPCODE (R176). -/
  | hotpcode (alg : Alg) (digits : Nat)
  deriving DecidableEq, Repr

end Sys2Proof
end

