-- ==== Sys2Proof/WellFormed.lean ====
section
/-! DEFINITION. Which command terms have an encoding: DIGITS is a 4-bit field (30_encoding.md R102, R112). -/

namespace Sys2Proof

/-- The digit count fits the 4-bit field DIGITS: 0 to 15. Only 6 to 8 are legal, but that is checked when the
command executes, not by the encoding (R102, R110). -/
def digitsEncodable (d : Nat) : Bool := decide (d < 16)

/-- A command term that some word encodes. -/
def Instr.wf : Instr → Bool
  | .b32enc => true
  | .b32dec => true
  | .hotpmsg => true
  | .hotptrunc _ => true
  | .hotpfold d => digitsEncodable d
  | .hotpcode _ d => digitsEncodable d

end Sys2Proof
end

