-- ==== Sys2Proof/Decode.lean ====
section
/-! DEFINITION. The decoder of 30_encoding.md R110, total on all 2^32 words, and the encoder of R100 to R106. -/

namespace Sys2Proof

/-- What a word decodes to: R110's "Cmd | Illegal". -/
inductive Decoded where
  | cmd (i : Instr)
  /-- The word is illegal (R107). It still issues, and completes with IllegalCommand (R219). -/
  | illegal
  deriving DecidableEq, Repr

/-- OP = w[7:0] (R101). -/
def fieldOp (w : Word) : Nat := (w.extractLsb' 0 8).toNat

/-- DIGITS = w[11:8], unsigned (R102). -/
def fieldDigits (w : Word) : Nat := (w.extractLsb' 8 4).toNat

/-- ALG = w[13:12] (R103). -/
def fieldAlg (w : Word) : Nat := (w.extractLsb' 12 2).toNat

/-- RSV = w[31:14] (R104). -/
def fieldRsv (w : Word) : Nat := (w.extractLsb' 14 18).toNat

/-- R103's numbering; 3 is reserved. -/
def algOfField : Nat → Option Alg
  | 0 => some .sha1
  | 1 => some .sha256
  | 2 => some .sha512
  | _ => none

/-- R103's numbering, the other way. -/
def fieldOfAlg : Alg → BitVec 2
  | .sha1 => 0
  | .sha256 => 1
  | .sha512 => 2

/-- The operands of HOTPTRUNC: DIGITS must be 0, ALG not 3 (R105, R110). -/
def decodeTrunc (w : Word) : Decoded :=
  match algOfField (fieldAlg w) with
  | some a => if fieldDigits w = 0 then .cmd (.hotptrunc a) else .illegal
  | none => .illegal

/-- The operands of HOTPCODE: ALG not 3, DIGITS any (R105, R110). -/
def decodeCode (w : Word) : Decoded :=
  match algOfField (fieldAlg w) with
  | some a => .cmd (.hotpcode a (fieldDigits w))
  | none => .illegal

/-- R110's `decodeCmd`. The digit range 6 to 8 is not checked here. -/
def decode (w : Word) : Decoded :=
  if fieldRsv w ≠ 0 then .illegal
  else if fieldOp w = 0x01 then
    if fieldDigits w = 0 ∧ fieldAlg w = 0 then .cmd .b32enc else .illegal
  else if fieldOp w = 0x02 then
    if fieldDigits w = 0 ∧ fieldAlg w = 0 then .cmd .b32dec else .illegal
  else if fieldOp w = 0x03 then
    if fieldDigits w = 0 ∧ fieldAlg w = 0 then .cmd .hotpmsg else .illegal
  else if fieldOp w = 0x04 then decodeTrunc w
  else if fieldOp w = 0x05 then
    if fieldAlg w = 0 then .cmd (.hotpfold (fieldDigits w)) else .illegal
  else if fieldOp w = 0x06 then decodeCode w
  else .illegal

/-- A CMD32 word from its fields: RSV (0), ALG, DIGITS, OP, most significant first (R100). -/
def cmd32 (alg : BitVec 2) (digits : BitVec 4) (op : BitVec 8) : Word :=
  ((0 : BitVec 18) ++ alg ++ digits ++ op).cast (by decide)

/-- The word of a command (R105, R106, R112). A digit count that is not `digitsEncodable` has no word; its low
four bits are taken. -/
def encode : Instr → Word
  | .b32enc => cmd32 0 0 0x01
  | .b32dec => cmd32 0 0 0x02
  | .hotpmsg => cmd32 0 0 0x03
  | .hotptrunc a => cmd32 (fieldOfAlg a) 0 0x04
  | .hotpfold d => cmd32 0 (BitVec.ofNat 4 d) 0x05
  | .hotpcode a d => cmd32 (fieldOfAlg a) (BitVec.ofNat 4 d) 0x06

/-- The 32-bit word whose low `nbits` bits are those of `w`, its other bits zero. A command is exactly one 32-bit
register write (R100, R109) and the host bus's byte order is never visible (R75), so no bytes are laid out. -/
def tableWord (nbits w : Nat) : Word := BitVec.ofNat 32 (w % 2 ^ nbits)

/-- What the decoder reads from an opcode-table word of `nbits` bits. -/
def decodeTableWord (nbits w : Nat) : Option Instr :=
  match decode (tableWord nbits w) with
  | .cmd i => some i
  | .illegal => none

end Sys2Proof
end

