-- ==== Sys2Proof/Machine/Operands.lean ====
section
/-! DEFINITION. The operands of the commands, assembled as 30_encoding.md R111 says, and the checks on them
(41_hotp.md R170, 60_exceptions.md R217, R218). -/

namespace Sys2Proof.Machine

/-- n = x[INLEN][15:0], zero-extended (R111). -/
def inputLength (s : State) : Nat := ((s.readReg .inlen).extractLsb' 0 16).toNat

/-- counter = CTR_HI, CTR_LO concatenated, CTR_HI high (R38, R111). -/
def counter (s : State) : BitVec 64 := (s.readReg .ctrHi ++ s.readReg .ctrLo).cast (by decide)

/-- v = x[VALUE][30:0], zero-extended (R111). -/
def foldOperand (s : State) : Nat := ((s.readReg .value).extractLsb' 0 31).toNat

/-- The digest length L of an algorithm, in bytes (R103). -/
def digestLen : Alg → Nat
  | .sha1 => 20
  | .sha256 => 32
  | .sha512 => 64

/-- R170's `validDigits`. -/
def validDigits (d : Nat) : Bool := d == 6 || d == 7 || d == 8

/-- LengthError's condition: n > IBUF_SIZE (R218). -/
def inputTooLong (s : State) : Bool := decide (s.cfg.ibufSize < inputLength s)

/-- The input bytes IBUF[0..n), index 0 first (R111); none when one of them is unspecified (R46). -/
def inputBytes (s : State) (n : Nat) : Option (List Byte) := s.ibuf.readBytes 0 n

/-- The checks of HOTPTRUNC and HOTPCODE on INLEN, in R221's order: LengthError, then InvalidLength (R217, R218). -/
def digestError (alg : Alg) (s : State) : Option CmdError :=
  if inputTooLong s then some .lengthError
  else if inputLength s ≠ digestLen alg then some .invalidLength
  else none

/-- The checks of B32DEC on INLEN, in R221's order: LengthError, then InvalidLength (R137, R217, R218). -/
def textError (s : State) : Option CmdError :=
  if inputTooLong s then some .lengthError
  else if inputLength s % 8 ≠ 0 then some .invalidLength
  else none

end Sys2Proof.Machine
end

