-- ==== Sys2Proof/Machine/Base32.lean ====
section
/-! DEFINITION. The Base32 codec, B32ENC and B32DEC (40_base32.md R130 to R140), on byte lists and naturals (20_memory.md R77). -/

namespace Sys2Proof.Machine

/-- The pad character '=' (R12). -/
def padChar : Byte := 0x3D

/-- R130's `enc32`: a nickel value to its character. -/
def enc32 (v : Nat) : Byte :=
  if v ≤ 25 then BitVec.ofNat 8 (0x41 + v) else BitVec.ofNat 8 (0x32 + (v - 26))

/-- R131's `val32`: a character to its nickel value; none is R131's "invalid". -/
def val32 (c : Byte) : Option Nat :=
  if 0x41 ≤ c.toNat ∧ c.toNat ≤ 0x5A then some (c.toNat - 0x41)
  else if 0x32 ≤ c.toNat ∧ c.toNat ≤ 0x37 then some (c.toNat - 0x32 + 26)
  else if c.toNat = 0x3D then some 0
  else none

/-- Byte `j` of a block as a number, zero past its end (R132). -/
def blockByte (bs : List Byte) (j : Nat) : Nat := (bs.getD j 0).toNat

/-- R132's `pack40`: the block's bytes, the first most significant, missing bytes zero. -/
def pack40 (bs : List Byte) : Nat :=
  blockByte bs 0 * 2 ^ 32 + blockByte bs 1 * 2 ^ 24 + blockByte bs 2 * 2 ^ 16 + blockByte bs 3 * 2 ^ 8 + blockByte bs 4

/-- R132's lane `s`: acc[39 - 5s : 35 - 5s], for s = 0..7. -/
def nickel (acc s : Nat) : Nat := acc / 2 ^ (35 - 5 * s) % 32

/-- R133: the real symbols ⌈8m/5⌉ of a block of m bytes. -/
def realSymbols (m : Nat) : Nat := (8 * m + 4) / 5

/-- The eight characters of one block (R134). -/
def encodeBlock (bs : List Byte) : List Byte :=
  (List.range 8).map fun s => if s < realSymbols bs.length then enc32 (nickel (pack40 bs) s) else padChar

/-- The Base32 text of `b` (R134): G = ⌈n/5⌉ blocks, block k being b[5k .. 5k + m). -/
def base32Encode (b : List Byte) : List Byte :=
  (List.range ((b.length + 4) / 5)).flatMap fun k => encodeBlock ((b.drop (5 * k)).take 5)

/-- B32ENC (R134). -/
def execB32enc (s : State) : Host.Outcome State Fault Refusal :=
  if inputTooLong s then .next (s.completeError .lengthError)
  else
    match inputBytes s (inputLength s) with
    | none => stopUnwritten s
    | some b => .next (s.commitOutput (base32Encode b)).completeSuccess

/-- The 40-bit accumulator of a group, the first symbol most significant (R135). -/
def packSymbols (vs : List Nat) : Nat := vs.foldl (fun acc v => acc * 2 ^ 5 + v) 0

/-- R135's `unpack40`: the group's five big-endian bytes. -/
def unpack40 (vs : List Nat) : List Byte :=
  [BitVec.ofNat 8 (packSymbols vs / 2 ^ 32), BitVec.ofNat 8 (packSymbols vs / 2 ^ 24),
    BitVec.ofNat 8 (packSymbols vs / 2 ^ 16), BitVec.ofNat 8 (packSymbols vs / 2 ^ 8),
    BitVec.ofNat 8 (packSymbols vs)]

/-- The symbol value of a character that `val32` accepts. -/
def symbolValue (c : Byte) : Nat := (val32 c).getD 0

/-- The first character, from index `i` on, that `val32` rejects (R137, R215). -/
def firstInvalid : Nat → List Byte → Option CmdError
  | _, [] => none
  | i, c :: cs =>
    match val32 c with
    | some _ => firstInvalid (i + 1) cs
    | none => some (.invalidCharacter c i)

/-- R136's `trailPads`: the trailing pads of the final group, counted up to 6. -/
def trailPads (c : List Byte) : Nat := min ((c.reverse.take 8).takeWhile (· == padChar)).length 6

/-- R136's `dropCount`. -/
def dropCount : Nat → Nat
  | 1 => 1
  | 3 => 2
  | 4 => 3
  | 6 => 4
  | _ => 0

/-- The bytes dropped from a text (R137): none from the empty text. -/
def droppedBytes (c : List Byte) : Nat := if c.length / 8 = 0 then 0 else dropCount (trailPads c)

/-- The bytes of a valid Base32 text (R137): five per group, less the dropped ones. -/
def base32Decode (c : List Byte) : List Byte :=
  ((List.range (c.length / 8)).flatMap fun k => unpack40 (((c.drop (8 * k)).take 8).map symbolValue)).take
    (5 * (c.length / 8) - droppedBytes c)

/-- B32DEC (R137). UnwrittenInput is considered after the length checks and before InvalidCharacter (R221). -/
def execB32dec (s : State) : Host.Outcome State Fault Refusal :=
  match textError s with
  | some e => .next (s.completeError e)
  | none =>
    match inputBytes s (inputLength s) with
    | none => stopUnwritten s
    | some c =>
      match firstInvalid 0 c with
      | some e => .next (s.completeError e)
      | none => .next (s.commitOutput (base32Decode c)).completeSuccess

end Sys2Proof.Machine
end

