-- ==== Sys2Proof/Machine/Hotp.lean ====
section
/-! DEFINITION. HOTPMSG, HOTPTRUNC, HOTPFOLD and HOTPCODE (41_hotp.md R170 to R176). -/

namespace Sys2Proof.Machine

/-- The 8-byte big-endian message of a counter (R171): byte i is c[63 - 8i : 56 - 8i]. -/
def counterMessage (c : BitVec 64) : List Byte := (List.range 8).map fun i => c.extractLsb' (56 - 8 * i) 8

/-- HOTPMSG (R171). -/
def execHotpmsg (s : State) : Host.Outcome State Fault Refusal :=
  .next (s.commitOutput (counterMessage (counter s))).completeSuccess

/-- The truncation offset: the low 4 bits of the digest's last byte (R172). -/
def truncOffset (h : List Byte) : Nat := ((h.getD (h.length - 1) 0).extractLsb' 0 4).toNat

/-- R172's t32: the big-endian unsigned 32-bit value of h[off .. off + 4). -/
def truncWindow (h : List Byte) : Word :=
  (h.getD (truncOffset h) 0 ++ h.getD (truncOffset h + 1) 0 ++ h.getD (truncOffset h + 2) 0 ++
    h.getD (truncOffset h + 3) 0).cast (by decide)

/-- R172's masked value: bit 31 cleared. -/
def truncMasked (h : List Byte) : Word := truncWindow h &&& 0x7FFFFFFF

/-- HOTPTRUNC (R173). -/
def execHotptrunc (alg : Alg) (s : State) : Host.Outcome State Fault Refusal :=
  match digestError alg s with
  | some e => .next (s.completeError e)
  | none =>
    match inputBytes s (digestLen alg) with
    | none => stopUnwritten s
    | some h => .next (s.commitTrunc (truncOffset h) (truncMasked h)).completeSuccess

/-- R174's `fold`. -/
def foldCode (v d : Nat) : Nat := v % 10 ^ d

/-- R174's `render`: exactly d decimal digits in ASCII, most significant first. -/
def renderCode (code d : Nat) : List Byte :=
  (List.range d).map fun i => BitVec.ofNat 8 (0x30 + code / 10 ^ (d - 1 - i) % 10)

/-- HOTPFOLD (R175). -/
def execHotpfold (d : Nat) (s : State) : Host.Outcome State Fault Refusal :=
  if validDigits d then
    .next ((s.commitCode (foldCode (foldOperand s) d)).commitOutput
      (renderCode (foldCode (foldOperand s) d) d)).completeSuccess
  else .next (s.completeError .invalidDigits)

/-- HOTPCODE (R176): the digit check comes before every other check (R170). -/
def execHotpcode (alg : Alg) (d : Nat) (s : State) : Host.Outcome State Fault Refusal :=
  if validDigits d then
    match digestError alg s with
    | some e => .next (s.completeError e)
    | none =>
      match inputBytes s (digestLen alg) with
      | none => stopUnwritten s
      | some h =>
        .next (((s.commitTrunc (truncOffset h) (truncMasked h)).commitCode
          (foldCode (truncMasked h).toNat d)).commitOutput
            (renderCode (foldCode (truncMasked h).toNat d) d)).completeSuccess
  else .next (s.completeError .invalidDigits)

end Sys2Proof.Machine
end

