-- ==== Sys2Proof/Machine/Dispatch.lean ====
section
/-! DEFINITION. `exec`: the rule of a command, run by the engine at completion (60_exceptions.md R211). -/

namespace Sys2Proof.Machine

/-- What a decoded command does (R211, step 3). -/
def exec (i : Instr) (s : State) : Host.Outcome State Fault Refusal :=
  match i with
  | .b32enc => Sys2Proof.Machine.execB32enc s
  | .b32dec => Sys2Proof.Machine.execB32dec s
  | .hotpmsg => Sys2Proof.Machine.execHotpmsg s
  | .hotptrunc alg => Sys2Proof.Machine.execHotptrunc alg s
  | .hotpfold digits => Sys2Proof.Machine.execHotpfold digits s
  | .hotpcode alg digits => Sys2Proof.Machine.execHotpcode alg digits s

end Sys2Proof.Machine
end

