-- ==== Sys2Proof/Machine/Engine.lean ====
section
/-! DEFINITION. The engine's completion step (60_exceptions.md R211), and whose turn a step is (20_memory.md R83,
70_reset_and_hazards.md R260). -/

namespace Sys2Proof.Machine

/-- The word of the pending command: the one latched in CMD (R47). -/
def pendingWord (s : State) : Word := s.readReg .cmd

/-- Completion (R211): decode CMD; an illegal word takes the error completion with IllegalCommand (R219), any other
runs its command's rule. -/
def engineStep (s : State) : Host.Outcome State Fault Refusal :=
  match decode (pendingWord s) with
  | .illegal => .next (s.completeError .illegalCommand)
  | .cmd i => exec i s

/-- The engine's step is enabled while BUSY = 1 (R211), and taken unless the schedule gives the host this turn. The
schedule is a finite list, so every pending command completes (R260, log 3). -/
def engineTurn (s : State) : Bool := s.busy && !(s.schedule.head? == some .host)

/-- A step while BUSY uses up one entry of the schedule. -/
def takeTurn (s : State) : State := if s.busy then { s with schedule := s.schedule.tail } else s

end Sys2Proof.Machine
end

