-- ==== Sys2Proof/Machine/Step.lean ====
section
/-! DEFINITION. One step of the block and its host, and the state whose next step runs a given word. -/

namespace Sys2Proof.Machine

/-- One step: the engine's completion of the pending command, or one move of the host (R14). -/
def step (s : State) : Host.Outcome State Fault Refusal :=
  if engineTurn s then engineStep (takeTurn s) else .next (hostTurn (takeTurn s))

/-- `s` with the word issued (R210) and the next turn given to the engine, so that the very next step completes
it (log 12). -/
def State.withFetchWord (s : State) (nbits w : Nat) : State :=
  { s.issue (tableWord nbits w) with schedule := .engine :: s.schedule }

end Sys2Proof.Machine
end

