-- ==== Sys2Proof/Machine/Asm.lean ====
section
/-! DEFINITION. The assembler of 30_encoding.md R112 and the host operations and pseudo-operations of R113, as lists of host moves. -/

namespace Sys2Proof.Machine

/-- A line of R112. An omitted operand is `none`; an algorithm name is its ASCII characters (R12, log 13). -/
inductive AsmLine where
  | b32enc
  | b32dec
  | hotpmsg
  | hotptrunc (alg : Option (List Byte))
  | hotpfold (digits : Option Nat)
  | hotpcode (alg : Option (List Byte)) (digits : Option Nat)
  deriving DecidableEq, Repr

/-- "SHA1". -/
def nameSha1 : List Byte := [0x53, 0x48, 0x41, 0x31]

/-- "SHA256". -/
def nameSha256 : List Byte := [0x53, 0x48, 0x41, 0x32, 0x35, 0x36]

/-- "SHA512". -/
def nameSha512 : List Byte := [0x53, 0x48, 0x41, 0x35, 0x31, 0x32]

/-- An algorithm operand: omitted is SHA1, any other name is refused (R112). -/
def asmAlg : Option (List Byte) → Option Alg
  | none => some .sha1
  | some n =>
    if n = nameSha1 then some .sha1
    else if n = nameSha256 then some .sha256
    else if n = nameSha512 then some .sha512
    else none

/-- A digits operand: omitted is 6, more than 15 is refused (R112). -/
def asmDigits : Option Nat → Option Nat
  | none => some 6
  | some d => if digitsEncodable d then some d else none

/-- The word a line assembles to; none where the assembler refuses it (R112). -/
def assemble : AsmLine → Option Word
  | .b32enc => some 0x00000001
  | .b32dec => some 0x00000002
  | .hotpmsg => some 0x00000003
  | .hotptrunc a => (asmAlg a).map fun a => 0x00000004 ||| ((fieldOfAlg a).setWidth 32 <<< 12)
  | .hotpfold d => (asmDigits d).map fun d => 0x00000005 ||| (BitVec.ofNat 32 d <<< 8)
  | .hotpcode a d =>
    match asmAlg a, asmDigits d with
    | some a, some d => some (0x00000006 ||| ((fieldOfAlg a).setWidth 32 <<< 12) ||| (BitVec.ofNat 32 d <<< 8))
    | _, _ => none

/-- `WR reg, imm32` (R113). -/
def opWr (cfg : Config) (r : Reg) (imm : Word) : HostMove := .write (cfg.base + r.offsetInWindow) 32 imm

/-- `RD reg` (R113). -/
def opRd (cfg : Config) (r : Reg) : HostMove := .read (cfg.base + r.offsetInWindow) 32

/-- `WRB IBUF+i, imm8` (R113). -/
def opWrb (cfg : Config) (i : Nat) (imm : Byte) : HostMove := .write (cfg.base + (ibufWindow + i)) 8 (imm.setWidth 32)

/-- `RDB IBUF+i` (R113). -/
def opRdbIbuf (cfg : Config) (i : Nat) : HostMove := .read (cfg.base + (ibufWindow + i)) 8

/-- `RDB OBUF+i` (R113). -/
def opRdbObuf (cfg : Config) (i : Nat) : HostMove := .read (cfg.base + (obufWindow + i)) 8

/-- `WRBYTES IBUF+i, b0, …` and, on a text's ASCII codes, `WRSTR` (R113). -/
def opWrbytes (cfg : Config) : Nat → List Byte → List HostMove
  | _, [] => []
  | i, b :: bs => opWrb cfg i b :: opWrbytes cfg (i + 1) bs

/-- `RDBYTES OBUF+i, k` (R113). -/
def opRdbytes (cfg : Config) : Nat → Nat → List HostMove
  | _, 0 => []
  | i, k + 1 => opRdbObuf cfg i :: opRdbytes cfg (i + 1) k

/-- A command line alone: the one host write it assembles to (R112). -/
def opCommand (cfg : Config) (l : AsmLine) : Option (List HostMove) :=
  (assemble l).map fun w => [opWr cfg .cmd w]

/-- `RUN command` = the command, then WAIT (R113). -/
def opRun (cfg : Config) (l : AsmLine) : Option (List HostMove) :=
  (assemble l).map fun w => [opWr cfg .cmd w, .wait]

end Sys2Proof.Machine
end

