-- ==== Sys2Proof/Safety.lean ====
section
/-! DEFINITION. The terms in which claims about the block are made: a clean run (10_state.md R48), the invariant of the
state, and the spec's own wording of operands, bus errors and error conditions. -/

namespace Sys2Proof.Machine

/-- R48: "no fault recorded and no refusal", the premise of a claim about a run. -/
def State.clean (s : State) : Prop := (∀ k, s.faults.has k = false) ∧ s.refusal = false

/-- ERRINFO.ECODE (R35). -/
def ecodeField (w : Word) : Nat := w.toNat % 16

/-- ERRINFO.ECHAR (R35). -/
def echarField (w : Word) : Byte := w.extractLsb' 8 8

/-- ERRINFO.EINDEX (R35). -/
def eindexField (w : Word) : Nat := w.toNat / 2 ^ 16

/-- What holds of the block at reset and after every step. -/
structure State.Inv (s : State) : Prop where
  /-- The parameters meet R8's constraints. -/
  cfg_wf : s.cfg.wf = true
  /-- R33's legal values. -/
  status_legal : s.status = 0x0 ∨ s.status = 0x1 ∨ s.status = 0x2 ∨ s.status = 0x6
  /-- Hardwired-zero bits are zero in every register (R32 to R41). -/
  hardwired_zero : ∀ r : Reg, s.stored r &&& r.mask = s.stored r
  /-- ECODE is not 0 exactly when the last completed command ended in error and none is pending (R35, R210, R213). -/
  ecode_iff_error : ecodeField s.errinfo ≠ 0 ↔ s.status = 0x6
  /-- ECODE values 6 to 15 are never produced (R214). -/
  ecode_le : ecodeField s.errinfo ≤ 5
  /-- ECHAR and EINDEX are 0 but for InvalidCharacter (R35). -/
  echar_zero : ecodeField s.errinfo ≠ 1 → echarField s.errinfo = 0 ∧ eindexField s.errinfo = 0
  /-- For InvalidCharacter, ECHAR is no Base32 character and EINDEX lies in IBUF (R35, R215). -/
  echar_invalid : ecodeField s.errinfo = 1 →
    val32 (echarField s.errinfo) = none ∧ eindexField s.errinfo < s.cfg.ibufSize
  /-- CODE < 10^8 (R41). -/
  code_lt : s.code.toNat < 10 ^ 8
  /-- Both buffers are in canonical form. -/
  ibuf_wf : s.ibuf.wf
  obuf_wf : s.obuf.wf
  /-- Only bytes of IBUF are written (R43). -/
  ibuf_bound : ∀ c ∈ s.ibuf, c.1 < s.cfg.ibufSize
  /-- A byte of OBUF is specified exactly when it lies below OUTLEN (R44, R45). -/
  obuf_specified : ∀ i, (s.obuf.read i).isSome = true ↔ i < s.outlen.toNat
  /-- The result fits OBUF (R8, R37). -/
  outlen_le : s.outlen.toNat ≤ s.cfg.obufSize

/-- n = x[INLEN][15:0] (R111). -/
def inlenOf (s : State) : Nat := s.inlen.toNat % 2 ^ 16

/-- IBUF[0..n) is written, and holds the bytes `b 0`, …, `b (n - 1)`. -/
def ibufHolds (s : State) (n : Nat) (b : Nat → Byte) : Prop := ∀ i, i < n → s.ibuf.read i = some (b i)

/-- OBUF[0..n) holds the bytes `b 0`, …, `b (n - 1)`, and every higher byte is unspecified (R44). -/
def obufHolds (s : State) (n : Nat) (b : Nat → Byte) : Prop :=
  (∀ i, i < n → s.obuf.read i = some (b i)) ∧ ∀ i, n ≤ i → s.obuf.read i = none

/-- The engine has the next step: a command is pending and the schedule does not give the host the turn. -/
def engineNext (s : State) : Prop := s.busy = true ∧ s.schedule.head? ≠ some .host

/-- The host has the next step: nothing is pending, or the schedule gives it the turn. -/
def hostNext (s : State) : Prop := s.busy = false ∨ s.schedule.head? = some .host

/-- The state with the entry of the schedule used up that a step while BUSY uses up. -/
def afterTurn (s : State) : State := { s with schedule := if s.busy then s.schedule.tail else s.schedule }

/-- A word of R107's list. -/
def illegalWord (w : Word) : Prop :=
  fieldRsv w ≠ 0 ∨ fieldOp w = 0x00 ∨ 0x07 ≤ fieldOp w ∨
    ((fieldOp w = 0x01 ∨ fieldOp w = 0x02 ∨ fieldOp w = 0x03 ∨ fieldOp w = 0x04) ∧ fieldDigits w ≠ 0) ∨
    ((fieldOp w = 0x01 ∨ fieldOp w = 0x02 ∨ fieldOp w = 0x03 ∨ fieldOp w = 0x05) ∧ fieldAlg w ≠ 0) ∨
    ((fieldOp w = 0x04 ∨ fieldOp w = 0x06) ∧ fieldAlg w = 3)

/-- A reserved range of R70. -/
def reservedOffset (cfg : Config) (off : Nat) : Prop :=
  (0x0028 ≤ off ∧ off < 0x1000) ∨ (0x1000 + cfg.ibufSize ≤ off ∧ off < 0x2000) ∨
    (0x2000 + cfg.obufSize ≤ off ∧ off < 0x4000)

/-- R73's list of bus errors, for an access at an offset of the window. -/
def busErrorAccess (cfg : Config) (isWrite : Bool) (off width : Nat) : Prop :=
  reservedOffset cfg off ∨
    (off < 0x28 ∧ (width ≠ 32 ∨ off % 4 ≠ 0)) ∨
    (0x1000 ≤ off ∧ off < 0x1000 + cfg.ibufSize ∧ width ≠ 8) ∨
    (0x2000 ≤ off ∧ off < 0x2000 + cfg.obufSize ∧ (width ≠ 8 ∨ isWrite = true))

/-- A bus access of the host, a read or a write, at an offset of the window. -/
def accessMove (cfg : Config) (isWrite : Bool) (off width : Nat) (data : Word) : HostMove :=
  if isWrite then .write (cfg.base + off) width data else .read (cfg.base + off) width

/-- The 40-bit value of block `k` of the `n` bytes `b` (R132): missing bytes are zero. -/
def blockAcc (n : Nat) (b : Nat → Byte) (k : Nat) : Nat :=
  (if 5 * k < n then (b (5 * k)).toNat else 0) * 2 ^ 32 +
    (if 5 * k + 1 < n then (b (5 * k + 1)).toNat else 0) * 2 ^ 24 +
    (if 5 * k + 2 < n then (b (5 * k + 2)).toNat else 0) * 2 ^ 16 +
    (if 5 * k + 3 < n then (b (5 * k + 3)).toNat else 0) * 2 ^ 8 +
    (if 5 * k + 4 < n then (b (5 * k + 4)).toNat else 0)

/-- R133's table of real symbols by bytes in a block. -/
def realOfBlock : Nat → Nat
  | 1 => 2
  | 2 => 4
  | 3 => 5
  | 4 => 7
  | _ => 8

/-- Character `p` of the Base32 text of the `n` bytes `b` (R134): lane p mod 8 of block p div 8. -/
def encodedChar (n : Nat) (b : Nat → Byte) (p : Nat) : Byte :=
  if p % 8 < realOfBlock (min 5 (n - 5 * (p / 8))) then
    enc32 (blockAcc n b (p / 8) / 2 ^ (35 - 5 * (p % 8)) % 2 ^ 5)
  else 0x3D

/-- The 40-bit value of group `k` of the symbol values `v` (R135). -/
def groupAcc (v : Nat → Nat) (k : Nat) : Nat :=
  v (8 * k) * 2 ^ 35 + v (8 * k + 1) * 2 ^ 30 + v (8 * k + 2) * 2 ^ 25 + v (8 * k + 3) * 2 ^ 20 +
    v (8 * k + 4) * 2 ^ 15 + v (8 * k + 5) * 2 ^ 10 + v (8 * k + 6) * 2 ^ 5 + v (8 * k + 7)

/-- Byte `q` of the decoded text (R135, R137): byte q mod 5 of group q div 5. -/
def decodedByte (v : Nat → Nat) (q : Nat) : Byte :=
  BitVec.ofNat 8 (groupAcc v (q / 5) / 2 ^ (32 - 8 * (q % 5)))

/-- `p` is the number of trailing pads of the text `c` of `n` characters, counted up to 6 (R136). -/
def trailingPads (n : Nat) (c : Nat → Byte) (p : Nat) : Prop :=
  p ≤ 6 ∧ (∀ j, j < p → c (n - 1 - j) = 0x3D) ∧ (p < 6 → c (n - 1 - p) ≠ 0x3D)

/-- The truncation offset of a digest of `L` bytes (R172). -/
def digestOffset (L : Nat) (h : Nat → Byte) : Nat := (h (L - 1)).toNat % 16

/-- The masked value of a digest of `L` bytes (R172): t32 mod 2^31 (R177). -/
def digestMasked (L : Nat) (h : Nat → Byte) : Nat :=
  ((h (digestOffset L h)).toNat * 2 ^ 24 + (h (digestOffset L h + 1)).toNat * 2 ^ 16 +
    (h (digestOffset L h + 2)).toNat * 2 ^ 8 + (h (digestOffset L h + 3)).toNat) % 2 ^ 31

/-- Character `i` of a code rendered with `d` digits (R174). -/
def codeDigit (code d i : Nat) : Byte := BitVec.ofNat 8 (0x30 + code / 10 ^ (d - 1 - i) % 10)

/-- When an error applies to the pending command, by its ECODE (R215 to R219). -/
def errorApplies (s : State) : Nat → Prop
  | 5 => illegalWord s.cmd
  | 2 => (fieldOp s.cmd = 5 ∨ fieldOp s.cmd = 6) ∧ fieldDigits s.cmd ∉ [6, 7, 8]
  | 4 => fieldOp s.cmd ∈ [1, 2, 4, 6] ∧ s.cfg.ibufSize < inlenOf s
  | 3 => (fieldOp s.cmd = 2 ∧ inlenOf s % 8 ≠ 0) ∨
      ((fieldOp s.cmd = 4 ∨ fieldOp s.cmd = 6) ∧
        ∃ a, algOfField (fieldAlg s.cmd) = some a ∧ inlenOf s ≠ digestLen a)
  | 1 => fieldOp s.cmd = 2 ∧ ∃ i c, i < inlenOf s ∧ s.ibuf.read i = some c ∧ val32 c = none
  | _ => False

end Sys2Proof.Machine
end

