-- ==== Sys2Proof/Certificates/Slice0/Obligations.lean ====
section
/-! DEFINITION. The statements about the model, made from the numbered rules of spec/; OBLIGATIONS.json lists them. -/

open Sys2Proof Sys2Proof.Machine

/-! ### Encoding -/

/-- Decoding the word of any command term that has one gives the command back, with every operand value (R100 to R106). -/
def Obligations.DecodeOfEncode : Prop :=
  ∀ i : Instr, i.wf = true → decode (encode i) = .cmd i

/-- Each legal word has one meaning: the command it decodes to has an encoding, and that is the word. -/
def Obligations.EncodeOfDecode : Prop :=
  ∀ (w : Word) (i : Instr), decode w = .cmd i → i.wf = true ∧ encode i = w

/-- R219: the words of R107's list, and no others, decode to no command, and the engine completes such a word with
IllegalCommand, STATUS 0x6 and ERRINFO 0x5, changing nothing else. -/
def Obligations.IllegalWordsFail : Prop :=
  ∀ w : Word,
    (decode w = .illegal ↔ illegalWord w) ∧
    ∀ s : State, illegalWord w → s.cmd = w → engineNext s →
      step s = .next { afterTurn s with status := 0x6, errinfo := 0x5 }

/-- R106: the default words, and the opcodes that are no command. -/
def Obligations.OpcodeMapWords : Prop :=
  decode 0x00000001 = .cmd .b32enc ∧ decode 0x00000002 = .cmd .b32dec ∧ decode 0x00000003 = .cmd .hotpmsg ∧
  decode 0x00000004 = .cmd (.hotptrunc .sha1) ∧ decode 0x00000605 = .cmd (.hotpfold 6) ∧
  decode 0x00000606 = .cmd (.hotpcode .sha1 6) ∧
  ∀ w : Word, (fieldOp w = 0x00 ∨ 0x07 ≤ fieldOp w) → decode w = .illegal

/-- R112: every line of the listing assembles to one write of CMD, with the word the listing gives; an omitted
algorithm is SHA1, omitted digits are 6, digits over 15 and other algorithm names are refused. -/
def Obligations.AssemblerWords : Prop :=
  (∀ (cfg : Config) (l : AsmLine), opCommand cfg l = (assemble l).map fun w => [.write cfg.base 32 w]) ∧
  assemble .b32enc = some 0x00000001 ∧ assemble .b32dec = some 0x00000002 ∧ assemble .hotpmsg = some 0x00000003 ∧
  (∀ (name : Option (List Byte)) (alg : Nat),
    ((name = none ∨ name = some nameSha1) ∧ alg = 0) ∨ (name = some nameSha256 ∧ alg = 1) ∨
      (name = some nameSha512 ∧ alg = 2) →
    assemble (.hotptrunc name) = some (BitVec.ofNat 32 (0x4 + alg * 2 ^ 12)) ∧
    assemble (.hotpcode name none) = some (BitVec.ofNat 32 (0x6 + alg * 2 ^ 12 + 6 * 2 ^ 8)) ∧
    ∀ d, d ≤ 15 → assemble (.hotpcode name (some d)) = some (BitVec.ofNat 32 (0x6 + alg * 2 ^ 12 + d * 2 ^ 8))) ∧
  assemble (.hotpfold none) = some (BitVec.ofNat 32 (0x5 + 6 * 2 ^ 8)) ∧
  (∀ d, d ≤ 15 → assemble (.hotpfold (some d)) = some (BitVec.ofNat 32 (0x5 + d * 2 ^ 8))) ∧
  (∀ d, 15 < d → assemble (.hotpfold (some d)) = none ∧ ∀ name, assemble (.hotpcode name (some d)) = none) ∧
  ∀ n : List Byte, n ≠ nameSha1 → n ≠ nameSha256 → n ≠ nameSha512 →
    assemble (.hotptrunc (some n)) = none ∧ ∀ d, assemble (.hotpcode (some n) d) = none

/-! ### A step -/

/-- R211: with a command pending and the engine's turn, a step decodes the word latched in CMD and runs that command's
rule, on the state with the schedule's entry used up. -/
def Obligations.StepRunsDecodedCommand : Prop :=
  ∀ (s : State) (i : Instr), engineNext s → decode s.cmd = .cmd i → step s = exec i (afterTurn s)

/-- With nothing pending, or the host's turn, a step is the host's next move; with no move left nothing but the
schedule changes (R14, R83, R229; the schedule and the list of moves are the model's own, logs 3, 4 and 8). -/
def Obligations.StepRunsHostMove : Prop :=
  ∀ s : State, hostNext s →
    (∀ m rest, s.host = m :: rest → step s = .next (hostMove { afterTurn s with host := rest } m)) ∧
    (s.host = [] → step s = .next (afterTurn s))

/-- The state `withFetchWord` builds runs the word in its very next step, as the command just issued (log 12). -/
def Obligations.FetchedWordRunsNext : Prop :=
  ∀ (s : State) (w : Nat) (i : Instr), w < 2 ^ 32 → decodeTableWord 32 w = some i →
    step (s.withFetchWord 32 w) = exec i { s with cmd := BitVec.ofNat 32 w, status := 0x1, errinfo := 0x0 }

/-! ### Base32 -/

/-- R130 and R131: the alphabet in both directions. val32 gives a value exactly for the 32 characters, where it inverts
enc32, and for '=', where it gives 0; every other byte has none. enc32 never yields '=' (which R130 infers from its
function). -/
def Obligations.AlphabetMaps : Prop :=
  (∀ v, v ≤ 25 → enc32 v = BitVec.ofNat 8 (0x41 + v)) ∧
  (∀ v, 26 ≤ v → v ≤ 31 → enc32 v = BitVec.ofNat 8 (0x32 + (v - 26))) ∧
  (∀ v, v ≤ 31 → enc32 v ≠ 0x3D) ∧
  ∀ (c : Byte) (v : Nat), val32 c = some v ↔ (v ≤ 31 ∧ c = enc32 v) ∨ (v = 0 ∧ c = 0x3D)

/-- R134: B32ENC on written input that fits IBUF completes, and OBUF holds the Base32 text. The equation is the
frame: nothing but STATUS, OUTLEN and OBUF changes. -/
def Obligations.B32encEncodes : Prop :=
  ∀ (s : State) (b : Nat → Byte), s.cfg.wf = true → inlenOf s ≤ s.cfg.ibufSize → ibufHolds s (inlenOf s) b →
    ∃ t, exec .b32enc s = .next t ∧
      t = { s with status := 0x2, outlen := BitVec.ofNat 32 (8 * ((inlenOf s + 4) / 5)), obuf := t.obuf } ∧
      obufHolds t (8 * ((inlenOf s + 4) / 5)) (encodedChar (inlenOf s) b)

/-- R137: B32DEC on a written text of valid characters, a multiple of 8 long, completes, and OBUF holds the decoded
bytes less the dropped ones; `p` counts the trailing pads (R136). Pads elsewhere are value 0 (R138). -/
def Obligations.B32decDecodes : Prop :=
  ∀ (s : State) (c : Nat → Byte) (v : Nat → Nat) (p len : Nat), s.cfg.wf = true →
    inlenOf s ≤ s.cfg.ibufSize → inlenOf s % 8 = 0 → ibufHolds s (inlenOf s) c →
    (∀ i, i < inlenOf s → val32 (c i) = some (v i)) →
    (inlenOf s = 0 ∧ len = 0 ∨
      inlenOf s ≠ 0 ∧ trailingPads (inlenOf s) c p ∧
        (p = 1 ∧ len = 5 * (inlenOf s / 8) - 1 ∨ p = 3 ∧ len = 5 * (inlenOf s / 8) - 2 ∨
          p = 4 ∧ len = 5 * (inlenOf s / 8) - 3 ∨ p = 6 ∧ len = 5 * (inlenOf s / 8) - 4 ∨
          p ∉ [1, 3, 4, 6] ∧ len = 5 * (inlenOf s / 8))) →
    ∃ t, exec .b32dec s = .next t ∧
      t = { s with status := 0x2, outlen := BitVec.ofNat 32 len, obuf := t.obuf } ∧
      obufHolds t len (decodedByte v)

/-- R215: B32DEC fails with InvalidCharacter for the lowest index whose byte lies outside A-Z, 2-7 and '=', with that
byte in ECHAR and its index in EINDEX; nothing but STATUS and ERRINFO changes. The source's vector '1ABCDEFG' gives 0x3101. -/
def Obligations.B32decReportsFirstInvalid : Prop :=
  ∀ (s : State) (c : Nat → Byte) (i : Nat),
    inlenOf s ≤ s.cfg.ibufSize → inlenOf s % 8 = 0 → ibufHolds s (inlenOf s) c → i < inlenOf s →
    ¬((0x41 ≤ (c i).toNat ∧ (c i).toNat ≤ 0x5A) ∨ (0x32 ≤ (c i).toNat ∧ (c i).toNat ≤ 0x37) ∨ (c i).toNat = 0x3D) →
    (∀ j, j < i →
      (0x41 ≤ (c j).toNat ∧ (c j).toNat ≤ 0x5A) ∨ (0x32 ≤ (c j).toNat ∧ (c j).toNat ≤ 0x37) ∨ (c j).toNat = 0x3D) →
    exec .b32dec s = .next { s with
      status := 0x6, errinfo := BitVec.ofNat 32 (0x1 + (c i).toNat * 2 ^ 8 + i * 2 ^ 16) } ∧
    (i = 0 → c 0 = 0x31 → exec .b32dec s = .next { s with status := 0x6, errinfo := 0x00003101 })

/-- R142's round trip (the spec's own inference), in the block: after B32ENC, a state whose IBUF holds a copy of the text and whose INLEN is its
length decodes to the bytes encoded. -/
def Obligations.Base32RoundTrip : Prop :=
  ∀ (s t s' : State) (b : Nat → Byte), s.cfg.wf = true → s'.cfg = s.cfg → inlenOf s ≤ s.cfg.ibufSize →
    ibufHolds s (inlenOf s) b → exec .b32enc s = .next t →
    8 * ((inlenOf s + 4) / 5) ≤ s.cfg.ibufSize → inlenOf s' = 8 * ((inlenOf s + 4) / 5) →
    (∀ i, i < inlenOf s' → s'.ibuf.read i = t.obuf.read i) →
    ∃ u, exec .b32dec s' = .next u ∧ u.status = 0x2 ∧ u.outlen = BitVec.ofNat 32 (inlenOf s) ∧
      obufHolds u (inlenOf s) b

/-! ### HOTP -/

/-- R171: HOTPMSG completes in every state, and OBUF holds the counter's eight bytes, the most significant first; nothing
but STATUS, OUTLEN and OBUF changes. -/
def Obligations.HotpmsgSerialises : Prop :=
  ∀ s : State, ∃ t, exec .hotpmsg s = .next t ∧
    t = { s with status := 0x2, outlen := 8, obuf := t.obuf } ∧
    obufHolds t 8 fun i => BitVec.ofNat 8 ((s.ctrHi.toNat * 2 ^ 32 + s.ctrLo.toNat) / 2 ^ (56 - 8 * i))

/-- R172 and R173: HOTPTRUNC on a written digest of ALG's length completes, with the offset in OFFSET and the masked
value in VALUE; nothing but STATUS, OFFSET and VALUE changes. -/
def Obligations.HotptruncTruncates : Prop :=
  ∀ (s : State) (a : Alg) (h : Nat → Byte),
    inlenOf s ≤ s.cfg.ibufSize → inlenOf s = digestLen a → ibufHolds s (digestLen a) h →
    exec (.hotptrunc a) s = .next { s with
      status := 0x2, offset := BitVec.ofNat 32 (digestOffset (digestLen a) h),
      value := BitVec.ofNat 32 (digestMasked (digestLen a) h) }

/-- R174 and R175: HOTPFOLD with 6, 7 or 8 digits completes in every state, with VALUE mod 10^d in CODE and its d
digits in OBUF; nothing but STATUS, CODE, OUTLEN and OBUF changes. -/
def Obligations.HotpfoldFolds : Prop :=
  ∀ (s : State) (d : Nat), d ∈ [6, 7, 8] →
    ∃ t, exec (.hotpfold d) s = .next t ∧
      t = { s with
        status := 0x2, code := BitVec.ofNat 32 (s.value.toNat % 2 ^ 31 % 10 ^ d), outlen := BitVec.ofNat 32 d,
        obuf := t.obuf } ∧
      obufHolds t d (codeDigit (s.value.toNat % 2 ^ 31 % 10 ^ d) d)

/-- R176: HOTPCODE with 6, 7 or 8 digits on a written digest of ALG's length completes, with OFFSET, VALUE, CODE, OUTLEN
and OBUF as truncation and folding give them; nothing else but STATUS changes. -/
def Obligations.HotpcodeTruncatesAndFolds : Prop :=
  ∀ (s : State) (a : Alg) (d : Nat) (h : Nat → Byte), d ∈ [6, 7, 8] →
    inlenOf s ≤ s.cfg.ibufSize → inlenOf s = digestLen a → ibufHolds s (digestLen a) h →
    ∃ t, exec (.hotpcode a d) s = .next t ∧
      t = { s with
        status := 0x2, offset := BitVec.ofNat 32 (digestOffset (digestLen a) h),
        value := BitVec.ofNat 32 (digestMasked (digestLen a) h),
        code := BitVec.ofNat 32 (digestMasked (digestLen a) h % 10 ^ d), outlen := BitVec.ofNat 32 d,
        obuf := t.obuf } ∧
      obufHolds t d (codeDigit (digestMasked (digestLen a) h % 10 ^ d) d)

/-- R176: a successful HOTPTRUNC followed by a successful HOTPFOLD leaves the state that one HOTPCODE leaves. -/
def Obligations.HotpcodeIsTruncThenFold : Prop :=
  ∀ (a : Alg) (d : Nat) (s t u : State),
    exec (.hotptrunc a) s = .next t → t.status = 0x2 → exec (.hotpfold d) t = .next u → u.status = 0x2 →
    exec (.hotpcode a d) s = .next u

/-- The rendered characters are decimal digits and read back as CODE, and there are exactly d of them (an inference from
R174; R177 is the spec's own). -/
def Obligations.RenderedDigitsReadBack : Prop :=
  ∀ (i : Instr) (d : Nat) (s t : State), i = .hotpfold d ∨ (∃ a, i = .hotpcode a d) →
    exec i s = .next t → t.status = 0x2 →
    t.outlen.toNat = d ∧ t.code.toNat < 10 ^ d ∧
    ∃ x : Nat → Nat, (∀ j, j < d → x j ≤ 9 ∧ t.obuf.read j = some (BitVec.ofNat 8 (0x30 + x j))) ∧
      ((List.range d).map fun j => x j * 10 ^ (d - 1 - j)).sum = t.code.toNat

/-- R177 (the spec's own inference): the ranges of the HOTP results, and every code of d digits is reachable. -/
def Obligations.HotpResultRanges : Prop :=
  (∀ (a : Alg) (s t : State), exec (.hotptrunc a) s = .next t → t.status = 0x2 →
    t.offset.toNat ≤ 15 ∧ t.value.toNat ≤ 2 ^ 31 - 1) ∧
  (∀ (a : Alg) (d : Nat) (s t : State), exec (.hotpcode a d) s = .next t → t.status = 0x2 →
    t.offset.toNat ≤ 15 ∧ t.value.toNat ≤ 2 ^ 31 - 1 ∧ t.code.toNat = t.value.toNat % 10 ^ d) ∧
  ∀ (d c : Nat), d ∈ [6, 7, 8] → c < 10 ^ d →
    ∃ s t : State, s.Inv ∧ exec (.hotpfold d) s = .next t ∧ t.code.toNat = c

/-! ### Errors -/

/-- R170 and R216: HOTPFOLD and HOTPCODE fail with InvalidDigits for every digit count but 6, 7 and 8, in every state, so
before any other check and before any operand is read. -/
def Obligations.DigitsCheckedFirst : Prop :=
  ∀ (s : State) (d : Nat), d ∉ [6, 7, 8] →
    exec (.hotpfold d) s = .next { s with status := 0x6, errinfo := 0x2 } ∧
    ∀ a, exec (.hotpcode a d) s = .next { s with status := 0x6, errinfo := 0x2 }

/-- R218: LengthError when INLEN > IBUF_SIZE, for the four commands that use INLEN; HOTPMSG and HOTPFOLD ignore INLEN
and never raise it. -/
def Obligations.LengthErrorRaised : Prop :=
  (∀ (s : State), s.cfg.ibufSize < inlenOf s →
    exec .b32enc s = .next { s with status := 0x6, errinfo := 0x4 } ∧
    exec .b32dec s = .next { s with status := 0x6, errinfo := 0x4 } ∧
    ∀ a, exec (.hotptrunc a) s = .next { s with status := 0x6, errinfo := 0x4 } ∧
      ∀ d, d ∈ [6, 7, 8] → exec (.hotpcode a d) s = .next { s with status := 0x6, errinfo := 0x4 }) ∧
  ∀ (s t : State) (x : Word) (d : Nat),
    (exec .hotpmsg s = .next t → t.status = 0x2 ∧ exec .hotpmsg { s with inlen := x } = .next { t with inlen := x }) ∧
    (exec (.hotpfold d) s = .next t → (t.status = 0x6 → t.errinfo = 0x2) ∧
      exec (.hotpfold d) { s with inlen := x } = .next { t with inlen := x })

/-- R217: InvalidLength, for B32DEC when INLEN is not a multiple of 8, for HOTPTRUNC and HOTPCODE when INLEN is not
ALG's digest length; of inputs that pass the checks before it (R221). -/
def Obligations.InvalidLengthRaised : Prop :=
  ∀ s : State, inlenOf s ≤ s.cfg.ibufSize →
    (inlenOf s % 8 ≠ 0 → exec .b32dec s = .next { s with status := 0x6, errinfo := 0x3 }) ∧
    ∀ a, inlenOf s ≠ digestLen a →
      exec (.hotptrunc a) s = .next { s with status := 0x6, errinfo := 0x3 } ∧
      ∀ d, d ∈ [6, 7, 8] → exec (.hotpcode a d) s = .next { s with status := 0x6, errinfo := 0x3 }

/-- R221: at completion exactly the first error that applies is reported, in the order IllegalCommand, InvalidDigits,
LengthError, InvalidLength, InvalidCharacter; success means none applies. UnwrittenInput is considered only when the first four do not
apply, and before InvalidCharacter, which is reported only of an input that is written. -/
def Obligations.ErrorPriority : Prop :=
  ∀ s : State, engineNext s →
    (∀ t, step s = .next t → t.status = 0x6 →
      ∃ higher e lower, [5, 2, 4, 3, 1] = higher ++ e :: lower ∧ errorApplies s e ∧
        (∀ x, x ∈ higher → ¬ errorApplies s x) ∧ ecodeField t.errinfo = e) ∧
    (∀ t, step s = .next t → t.status = 0x2 → ∀ e, e ∈ [5, 2, 4, 3, 1] → ¬ errorApplies s e) ∧
    (∀ f, step s = .fault f → ∀ e, e ∈ [5, 2, 4, 3] → ¬ errorApplies s e) ∧
    (∀ t, step s = .next t → t.status = 0x6 → ecodeField t.errinfo = 1 →
      ∀ i, i < inlenOf s → s.ibuf.read i ≠ none)

/-- R212: an error completion leaves STATUS 0x6 and ERRINFO = EINDEX, ECHAR, 0000, ECODE, and every other register and
both buffers as they were; ECHAR and EINDEX are 0 for every error but InvalidCharacter. -/
def Obligations.ErrorCompletionIsPrecise : Prop :=
  ∀ s t : State, engineNext s → step s = .next t → t.status = 0x6 →
    ∃ (eindex : BitVec 16) (echar : Byte) (code : BitVec 4),
      t = { afterTurn s with
        status := 0x6, errinfo := (eindex ++ echar ++ (0 : BitVec 4) ++ code).cast (by decide) } ∧
      (code = 1 ∨ code = 2 ∨ code = 3 ∨ code = 4 ∨ code = 5) ∧
      (code ≠ 1 → eindex = 0 ∧ echar = 0) ∧
      (code = 1 → eindex.toNat < inlenOf s ∧ s.ibuf.read eindex.toNat = some echar)

/-- The engine's step ends in success, in error, or in UnwrittenInput, never in a refusal. Success leaves ERRINFO as it
was (R211 step 4, R213, R230). That the stopped state has no other change is log 6. -/
def Obligations.CompletionOutcomes : Prop :=
  ∀ s : State, engineNext s →
    (∃ t, step s = .next t ∧ (t.status = 0x6 ∨ t.status = 0x2 ∧ t.errinfo = s.errinfo)) ∨
    step s = .fault (.unwrittenInput
      { afterTurn s with faults := { s.faults with unwrittenInput := true } })

/-- An unspecified byte in the input of a command whose length checks pass stops the run with UnwrittenInput, recorded
in the fault set, whatever the other bytes are (R46, R221, R230; that the recorded state has no other change is log 6). -/
def Obligations.UnwrittenInputStops : Prop :=
  ∀ (s : State) (i : Nat), inlenOf s ≤ s.cfg.ibufSize → i < inlenOf s → s.ibuf.read i = none →
    (exec .b32enc s = .fault (.unwrittenInput { s with faults := { s.faults with unwrittenInput := true } })) ∧
    (inlenOf s % 8 = 0 →
      exec .b32dec s = .fault (.unwrittenInput { s with faults := { s.faults with unwrittenInput := true } })) ∧
    ∀ a, inlenOf s = digestLen a →
      exec (.hotptrunc a) s = .fault (.unwrittenInput { s with faults := { s.faults with unwrittenInput := true } }) ∧
      ∀ d, d ∈ [6, 7, 8] →
        exec (.hotpcode a d) s = .fault (.unwrittenInput { s with faults := { s.faults with unwrittenInput := true } })

/-! ### Frames and dependence -/

/-- R49's command columns, as a frame: what no command writes, and what each command does not write; an error writes no
result. Every byte of IBUF reads as before; so does every byte of OBUF for HOTPTRUNC and for an error; a command that
stores its result stores to OBUF[0..OUTLEN) and makes every higher byte unspecified. -/
def Obligations.CommandFrame : Prop :=
  ∀ (i : Instr) (s t : State), exec i s = .next t →
    (t.cfg = s.cfg ∧ t.cmd = s.cmd ∧ t.inlen = s.inlen ∧ t.ctrLo = s.ctrLo ∧ t.ctrHi = s.ctrHi ∧
      t.faults = s.faults ∧ t.refusal = s.refusal ∧ t.host = s.host ∧ t.responses = s.responses ∧
      t.schedule = s.schedule ∧ ∀ j, t.ibuf.read j = s.ibuf.read j) ∧
    (t.status = 0x2 → t.errinfo = s.errinfo) ∧
    (t.status = 0x6 ∨ (∃ a, i = .hotptrunc a) → t.outlen = s.outlen ∧ t.code = s.code ∧ ∀ j, t.obuf.read j = s.obuf.read j) ∧
    (t.status = 0x6 ∨ i = .b32enc ∨ i = .b32dec ∨ i = .hotpmsg → t.code = s.code) ∧
    (t.status = 0x6 ∨ i = .b32enc ∨ i = .b32dec ∨ i = .hotpmsg ∨ (∃ d, i = .hotpfold d) →
      t.value = s.value ∧ t.offset = s.offset) ∧
    (t.status = 0x2 → (∀ a, i ≠ .hotptrunc a) → s.cfg.wf = true →
      ∀ j, t.outlen.toNat ≤ j → t.obuf.read j = none)

/-- R178 (the spec's own inference): identical command words and identical operand state give identical results. Two states that agree on the
parameters and on what R49 lists as the command's reads end alike: both stop, or both fail with the same ERRINFO,
or both succeed with the same value in every result the command writes. -/
def Obligations.OperandsDetermineResult : Prop :=
  ∀ (i : Instr) (s s' : State), s.cfg = s'.cfg →
    (i = .b32enc ∨ i = .b32dec ∨ (∃ a, i = .hotptrunc a) ∨ (∃ a d, i = .hotpcode a d) →
      s.inlen = s'.inlen ∧ ∀ j, s.ibuf.read j = s'.ibuf.read j) →
    (i = .hotpmsg → s.ctrLo = s'.ctrLo ∧ s.ctrHi = s'.ctrHi) →
    ((∃ d, i = .hotpfold d) → s.value = s'.value) →
    ((∃ f, exec i s = .fault f) ∧ ∃ f, exec i s' = .fault f) ∨
    ∃ t t', exec i s = .next t ∧ exec i s' = .next t' ∧ t.status = t'.status ∧
      (t.status = 0x6 → t.errinfo = t'.errinfo) ∧
      (t.status = 0x2 →
        ((∀ a, i ≠ .hotptrunc a) → t.outlen = t'.outlen ∧ ∀ j, t.obuf.read j = t'.obuf.read j) ∧
        ((∃ a, i = .hotptrunc a) ∨ (∃ a d, i = .hotpcode a d) → t.offset = t'.offset ∧ t.value = t'.value) ∧
        ((∃ d, i = .hotpfold d) ∨ (∃ a d, i = .hotpcode a d) → t.code = t'.code))

/-- R34: STATUS is written only by a completion (to 0x2 or 0x6), by the issue of a command (to 0x1) and by reset (to 0). -/
def Obligations.StatusWriters : Prop :=
  ∀ s t : State, step s = .next t → t.status ≠ s.status →
    (engineNext s ∧ (t.status = 0x2 ∨ t.status = 0x6)) ∨
    (hostNext s ∧ s.busy = false ∧ t.status = 0x1 ∧ ∃ w rest, s.host = .write s.cfg.base 32 w :: rest ∧ t.cmd = w) ∨
    (hostNext s ∧ t.status = 0x0 ∧ ∃ rest, s.host = .reset :: rest)

/-- R43: IBUF changes only by a host write of one of its bytes while no command is pending, and by reset. -/
def Obligations.IbufWriters : Prop :=
  ∀ s t : State, step s = .next t → t.ibuf ≠ s.ibuf →
    (s.busy = false ∧ ∃ i data rest, i < s.cfg.ibufSize ∧ s.host = .write (s.cfg.base + (0x1000 + i)) 8 data :: rest ∧
      ∀ j, j ≠ i → t.ibuf.read j = s.ibuf.read j) ∨
    (hostNext s ∧ t.ibuf = [] ∧ ∃ rest, s.host = .reset :: rest)

/-! ### The host -/

/-- R210 and R256: a CMD write while idle latches the word, sets STATUS to 0x1 and ERRINFO to 0 and changes nothing
else; while BUSY it is the hazard HostHazard and has no other effect. -/
def Obligations.CmdWriteIssues : Prop :=
  ∀ (s : State) (w : Word),
    (s.busy = false → hostMove s (.write s.cfg.base 32 w) =
      { s with cmd := w, status := 0x1, errinfo := 0x0, responses := .done :: s.responses }) ∧
    (s.busy = true → hostMove s (.write s.cfg.base 32 w) =
      { s with faults := { s.faults with hostHazard := true }, responses := .hazard :: s.responses })

/-- R73: exactly the accesses R73 lists are answered with a bus error, in every state, and change no block state. -/
def Obligations.BusErrors : Prop :=
  ∀ (s : State) (isWrite : Bool) (off width : Nat) (data : Word), s.cfg.wf = true → off < 0x4000 →
    (busErrorAccess s.cfg isWrite off width →
      hostMove s (accessMove s.cfg isWrite off width data) = { s with responses := .busError :: s.responses }) ∧
    (¬ busErrorAccess s.cfg isWrite off width →
      (hostMove s (accessMove s.cfg isWrite off width data)).responses.head? ≠ some .busError)

/-- R255: while BUSY a STATUS read gives STATUS, an access that is a bus error is a bus error, and every other access
records HostHazard and has no other effect. -/
def Obligations.BusyAccesses : Prop :=
  ∀ (s : State) (isWrite : Bool) (off width : Nat) (data : Word), s.cfg.wf = true → off < 0x4000 → s.busy = true →
    (busErrorAccess s.cfg isWrite off width →
      hostMove s (accessMove s.cfg isWrite off width data) = { s with responses := .busError :: s.responses }) ∧
    (¬ busErrorAccess s.cfg isWrite off width → off = 0x004 ∧ isWrite = false →
      hostMove s (accessMove s.cfg isWrite off width data) =
        { s with responses := .word (s.status &&& 0x7) :: s.responses }) ∧
    (¬ busErrorAccess s.cfg isWrite off width → ¬(off = 0x004 ∧ isWrite = false) →
      hostMove s (accessMove s.cfg isWrite off width data) =
        { s with faults := { s.faults with hostHazard := true }, responses := .hazard :: s.responses })

/-- R71: an aligned 32-bit read returns the whole register with its hardwired-zero bits as 0, for each of the ten
registers; a write presents all 32 bits and the register keeps those of its writable fields, which the five read-only
registers have none of (R36 to R41). A write of CMD also issues (CmdWriteIssues). -/
def Obligations.RegisterAccesses : Prop :=
  ∀ s : State, s.busy = false →
    (∀ p, p ∈ [(0x000, s.cmd), (0x004, s.status &&& 0x7), (0x008, s.errinfo &&& 0xFFFFFF0F),
        (0x00C, s.inlen &&& 0xFFFF), (0x010, s.outlen &&& 0xFFFF), (0x014, s.ctrLo), (0x018, s.ctrHi),
        (0x01C, s.value &&& 0x7FFFFFFF), (0x020, s.offset &&& 0xF), (0x024, s.code &&& 0x07FFFFFF)] →
      hostMove s (.read (s.cfg.base + p.1) 32) = { s with responses := .word p.2 :: s.responses }) ∧
    ∀ w : Word,
      (hostMove s (.write (s.cfg.base + 0x000) 32 w)).cmd = w ∧
      (∀ off, off ∈ [0x004, 0x008, 0x010, 0x020, 0x024] →
        hostMove s (.write (s.cfg.base + off) 32 w) = { s with responses := .done :: s.responses }) ∧
      hostMove s (.write (s.cfg.base + 0x014) 32 w) = { s with ctrLo := w, responses := .done :: s.responses } ∧
      hostMove s (.write (s.cfg.base + 0x018) 32 w) = { s with ctrHi := w, responses := .done :: s.responses } ∧
      hostMove s (.write (s.cfg.base + 0x00C) 32 w) =
        { s with inlen := w &&& 0xFFFF, responses := .done :: s.responses } ∧
      hostMove s (.write (s.cfg.base + 0x01C) 32 w) =
        { s with value := w &&& 0x7FFFFFFF, responses := .done :: s.responses }

/-- R74: a write to a read-only register completes and changes nothing; a write to a hardwired-zero bit of INLEN or VALUE
is dropped and the other bits are written. -/
def Obligations.ReadOnlyAndHardwiredWrites : Prop :=
  ∀ (s : State) (w : Word), s.busy = false →
    (∀ off, off ∈ [0x004, 0x008, 0x010, 0x020, 0x024] →
      hostMove s (.write (s.cfg.base + off) 32 w) = { s with responses := .done :: s.responses }) ∧
    hostMove s (.write (s.cfg.base + 0x00C) 32 w) =
      { s with inlen := BitVec.ofNat 32 (w.toNat % 2 ^ 16), responses := .done :: s.responses } ∧
    hostMove s (.write (s.cfg.base + 0x01C) 32 w) =
      { s with value := BitVec.ofNat 32 (w.toNat % 2 ^ 31), responses := .done :: s.responses }

/-- R46 and R72, the host's side: a byte write specifies that IBUF byte and leaves every other; a read of a specified byte
gives it; a read of an unspecified byte records UnspecifiedRead and gives no value. Which bits of the data a byte write
stores is log 10. -/
def Obligations.BufferAccesses : Prop :=
  ∀ (s : State), s.busy = false → s.cfg.wf = true →
    (∀ (i : Nat) (data : Word), i < s.cfg.ibufSize →
      ∃ m : Memory,
        hostMove s (.write (s.cfg.base + (0x1000 + i)) 8 data) =
          { s with ibuf := m, responses := .done :: s.responses } ∧
        ∀ j, m.read j = if j = i then some (BitVec.ofNat 8 data.toNat) else s.ibuf.read j) ∧
    (∀ (win size : Nat) (m : Memory) (i : Nat),
      win = 0x1000 ∧ size = s.cfg.ibufSize ∧ m = s.ibuf ∨ win = 0x2000 ∧ size = s.cfg.obufSize ∧ m = s.obuf →
      i < size →
      (∀ b, m.read i = some b →
        hostMove s (.read (s.cfg.base + (win + i)) 8) = { s with responses := .byte b :: s.responses }) ∧
      (m.read i = none →
        hostMove s (.read (s.cfg.base + (win + i)) 8) =
          { s with faults := { s.faults with unspecifiedRead := true }, responses := .unspecified :: s.responses }))

/-- R80: a read changes nothing but the host's answer and the model's marks, and repeating it changes nothing further and
answers the same. A write at any address but CMD's changes nothing but the answer and the marks, or it stores: it changes
the one register or IBUF byte it addresses and gets the answer, and nothing else, marks included, changes. Repeating it
leaves the same state but for the answer. -/
def Obligations.ReadsPureWritesIdempotent : Prop :=
  ∀ (s : State),
    (∀ addr width, ∃ f r x,
      hostMove s (.read addr width) = { s with faults := f, refusal := x, responses := r :: s.responses } ∧
      hostMove (hostMove s (.read addr width)) (.read addr width) =
        { s with faults := f, refusal := x, responses := r :: r :: s.responses }) ∧
    ∀ addr width data, addr ≠ s.cfg.base →
      ((∃ f r x,
          hostMove s (.write addr width data) = { s with faults := f, refusal := x, responses := r :: s.responses }) ∨
        (addr = s.cfg.base + 0x00C ∧
          hostMove s (.write addr width data) =
            { s with inlen := data &&& 0xFFFF, responses := .done :: s.responses }) ∨
        (addr = s.cfg.base + 0x014 ∧
          hostMove s (.write addr width data) = { s with ctrLo := data, responses := .done :: s.responses }) ∨
        (addr = s.cfg.base + 0x018 ∧
          hostMove s (.write addr width data) = { s with ctrHi := data, responses := .done :: s.responses }) ∨
        (addr = s.cfg.base + 0x01C ∧
          hostMove s (.write addr width data) =
            { s with value := data &&& 0x7FFFFFFF, responses := .done :: s.responses }) ∨
        ∃ (i : Nat) (m : Memory), i < s.cfg.ibufSize ∧ addr = s.cfg.base + (0x1000 + i) ∧
          hostMove s (.write addr width data) = { s with ibuf := m, responses := .done :: s.responses } ∧
          ∀ j, m.read j = if j = i then some (BitVec.ofNat 8 data.toNat) else s.ibuf.read j) ∧
      ∃ r, hostMove (hostMove s (.write addr width data)) (.write addr width data) =
        { hostMove s (.write addr width data) with
          responses := r :: (hostMove s (.write addr width data)).responses }

/-! ### Reset, marks, invariant, liveness -/

/-- R52: every field of the state after reset that the spec names; nothing is pending. -/
def Obligations.StateAfterReset : Prop :=
  (∀ r : Reg, State.reset.stored r = 0) ∧ (∀ i, State.reset.ibuf.read i = none) ∧
  (∀ i, State.reset.obuf.read i = none) ∧ State.reset.busy = false

/-- R52 and R251: when the platform asserts reset, whether or not a command is pending, every register is zero, every
buffer byte is unspecified and none is pending; the fault set and the refusal mark stay (R250). That the parameters and
the host's own fields stay too is the model's choice (logs 1 and 4). -/
def Obligations.ResetAbandonsPending : Prop :=
  ∀ (s : State) (rest : List HostMove), hostNext s → s.host = .reset :: rest →
    ∃ t, step s = .next t ∧ (∀ r : Reg, t.stored r = 0) ∧ (∀ i, t.ibuf.read i = none) ∧
      (∀ i, t.obuf.read i = none) ∧ t.busy = false ∧ t.faults = s.faults ∧ t.refusal = s.refusal ∧
      t.cfg = s.cfg ∧ t.host = rest ∧ t.responses = s.responses

/-- R48: no step clears a recorded fault or the refusal mark; a stop keeps them and adds UnwrittenInput. The parameters
never change (log 1). -/
def Obligations.MarksNeverCleared : Prop :=
  ∀ s : State,
    (∀ t, step s = .next t →
      (∀ k, s.faults.has k = true → t.faults.has k = true) ∧ (s.refusal = true → t.refusal = true) ∧ t.cfg = s.cfg) ∧
    (∀ t, step s = .fault (.unwrittenInput t) →
      (∀ k, t.faults.has k = true ↔ s.faults.has k = true ∨ k = .unwrittenInput) ∧ t.refusal = s.refusal)

/-- An access outside the window sets the refusal mark and has no other effect on the block (R48; which actions these
are is log 7). -/
def Obligations.OutsideWindowRefused : Prop :=
  ∀ (s : State) (addr width : Nat) (data : Word), addr < s.cfg.base ∨ s.cfg.base + 0x4000 ≤ addr →
    hostMove s (.read addr width) = { s with refusal := true, responses := .noMeaning :: s.responses } ∧
    hostMove s (.write addr width data) = { s with refusal := true, responses := .noMeaning :: s.responses }

/-- The state after reset meets the invariant (with the reference parameters, log 1). -/
def Obligations.InvariantAtReset : Prop := State.reset.Inv

/-- Every step keeps the invariant: legal STATUS, hardwired bits zero, ERRINFO's shape, canonical buffers, OBUF specified
exactly below OUTLEN (R33, R35, R44, R45, R214). -/
def Obligations.StepKeepsInvariant : Prop :=
  ∀ s t : State, s.Inv → step s = .next t → t.Inv

/-- R260: a pending command is pending no longer after finitely many steps, in every schedule (log 3), unless the run stops with
UnwrittenInput before. -/
def Obligations.PendingCommandCompletes : Prop :=
  ∀ s : State, s.busy = true → ∃ k, 1 ≤ k ∧ k ≤ s.schedule.length + 1 ∧
    ((∃ t, core.run k s = .next t ∧ t.busy = false) ∨ ∃ f, core.run k s = .fault f)

/-- R113 and R80: a turn of WAIT only reads STATUS: it adds that answer and, while BUSY, the WAIT comes again; nothing else
changes. R260: WAIT ends in every schedule, with no command pending, unless the run stops before. (The host's list of
moves and the answers are the model's own, log 4; the schedule is log 3.) -/
def Obligations.WaitEnds : Prop :=
  (∀ s : State,
    (s.busy = false → hostMove s .wait = { s with responses := .word (s.status &&& 0x7) :: s.responses }) ∧
    (s.busy = true →
      hostMove s .wait = { s with responses := .word (s.status &&& 0x7) :: s.responses, host := .wait :: s.host })) ∧
  ∀ (s : State) (rest : List HostMove), s.host = .wait :: rest → ∃ k, k ≤ s.schedule.length + 2 ∧
    ((∃ t r, core.run k s = .next t ∧ t.host = rest ∧ t.busy = false ∧ t.responses.head? = some (.word r) ∧
      r.getLsbD 0 = false) ∨
      ∃ f, core.run k s = .fault f)
end

