-- ==== Sys2Proof/Laws/Base32.lean ====
section
/-! SUPPORT. The Base32 codec on byte lists: lengths, the characters and bytes by index, the pads,
    and that the symbol maps invert each other. -/

namespace Sys2Proof.Machine

/-! ### Lists of fixed-length pieces -/

theorem length_flatMap_const {α : Type} (f : Nat → List α) (w : Nat) (hw : ∀ k, (f k).length = w) (G : Nat) :
    ((List.range G).flatMap f).length = w * G := by
  induction G with
  | zero => simp
  | succ G ih => rw [List.range_succ, List.flatMap_append, List.length_append, ih]; simp [hw, Nat.mul_succ]

/-- Element j of piece k stands at place w·k + j. -/
theorem getElem?_flatMap_const {α : Type} (f : Nat → List α) (w : Nat) (hw : ∀ k, (f k).length = w) {G k j : Nat}
    (hk : k < G) (hj : j < w) : ((List.range G).flatMap f)[w * k + j]? = (f k)[j]? := by
  induction G with
  | zero => omega
  | succ G ih =>
    rw [List.range_succ, List.flatMap_append, List.flatMap_singleton]
    have hl := length_flatMap_const f w hw G
    rcases Nat.lt_or_ge k G with h | h
    · have h1 : w * k + j < w * G := by
        calc w * k + j < w * k + w := by omega
          _ = w * (k + 1) := (Nat.mul_succ w k).symm
          _ ≤ w * G := Nat.mul_le_mul_left w h
      rw [List.getElem?_append_left (by omega), ih h]
    · have : k = G := by omega
      subst this
      rw [List.getElem?_append_right (by omega), hl]
      congr 1
      omega

/-! ### Symbol maps -/

theorem val32_enc32 {v : Nat} (h : v ≤ 31) : val32 (enc32 v) = some v := by
  interval_cases v <;> decide

theorem enc32_ne_pad {v : Nat} (h : v ≤ 31) : enc32 v ≠ padChar := by
  interval_cases v <;> decide

theorem val32_pad : val32 padChar = some 0 := by decide

theorem val32_le {c : Byte} {v : Nat} (h : val32 c = some v) : v ≤ 31 := by
  simp only [val32] at h
  split at h
  · simp only [Option.some.injEq] at h; omega
  · split at h
    · simp only [Option.some.injEq] at h; omega
    · split at h
      · simp only [Option.some.injEq] at h; omega
      · cases h

theorem val32_eq_none_iff (c : Byte) : val32 c = none ↔
    ¬((0x41 ≤ c.toNat ∧ c.toNat ≤ 0x5A) ∨ (0x32 ≤ c.toNat ∧ c.toNat ≤ 0x37) ∨ c.toNat = 0x3D) := by
  simp only [val32]
  split
  · simp_all
  · split
    · simp_all
    · split <;> simp_all

theorem symbolValue_le (c : Byte) : symbolValue c ≤ 31 := by
  unfold symbolValue
  cases h : val32 c with
  | none => simp
  | some v => exact val32_le h

/-! ### Encoding -/

@[simp] theorem length_encodeBlock (bs : List Byte) : (encodeBlock bs).length = 8 := by simp [encodeBlock]

theorem length_base32Encode (b : List Byte) : (base32Encode b).length = 8 * ((b.length + 4) / 5) :=
  length_flatMap_const _ 8 (fun _ => length_encodeBlock _) _

theorem realSymbols_eq {m : Nat} (h1 : 1 ≤ m) (h5 : m ≤ 5) : realSymbols m = realOfBlock m := by
  interval_cases m <;> rfl

theorem blockByte_of_fn (n : Nat) (b : Nat → Byte) (k j : Nat) (hj : j < 5) :
    blockByte ((((List.range n).map b).drop (5 * k)).take 5) j = if 5 * k + j < n then (b (5 * k + j)).toNat else 0
        := by
  simp only [blockByte, List.getD_eq_getElem?_getD, List.getElem?_take, hj, if_true, List.getElem?_drop,
    List.getElem?_map]
  by_cases h : 5 * k + j < n
  · simp [h]
  · simp [h]

theorem pack40_of_fn (n : Nat) (b : Nat → Byte) (k : Nat) :
    pack40 ((((List.range n).map b).drop (5 * k)).take 5) = blockAcc n b k := by
  simp only [pack40, blockAcc, blockByte_of_fn n b k _ (show 0 < 5 by omega),
    blockByte_of_fn n b k _ (show 1 < 5 by omega), blockByte_of_fn n b k _ (show 2 < 5 by omega),
    blockByte_of_fn n b k _ (show 3 < 5 by omega), blockByte_of_fn n b k _ (show 4 < 5 by omega), Nat.add_zero]

/-- The character at each place of the encoded text, as R134 gives it. -/
theorem getElem?_base32Encode (n : Nat) (b : Nat → Byte) {p : Nat} (hp : p < 8 * ((n + 4) / 5)) :
    (base32Encode ((List.range n).map b))[p]? = some (encodedChar n b p) := by
  have hk : p / 8 < (n + 4) / 5 := by omega
  have hj : p % 8 < 8 := Nat.mod_lt _ (by omega)
  have hG : (((List.range n).map b).length + 4) / 5 = (n + 4) / 5 := by simp
  unfold base32Encode
  rw [hG]
  conv_lhs => rw [← Nat.div_add_mod p 8]
  rw [getElem?_flatMap_const _ 8 (fun _ => length_encodeBlock _) hk hj]
  have hlen : ((((List.range n).map b).drop (5 * (p / 8))).take 5).length = min 5 (n - 5 * (p / 8)) := by simp
  have hreal : realSymbols (min 5 (n - 5 * (p / 8))) = realOfBlock (min 5 (n - 5 * (p / 8))) :=
    realSymbols_eq (by omega) (by omega)
  simp only [encodeBlock, hlen, hreal, pack40_of_fn, List.getElem?_map, List.getElem?_range hj, Option.map_some]
  rfl

/-! ### Decoding -/

@[simp] theorem length_unpack40 (vs : List Nat) : (unpack40 vs).length = 5 := rfl

theorem droppedBytes_le (c : List Byte) (h : c.length / 8 ≠ 0) : droppedBytes c ≤ 4 := by
  simp only [droppedBytes, h, if_false]
  unfold dropCount
  split <;> omega

theorem length_base32Decode (c : List Byte) :
    (base32Decode c).length = 5 * (c.length / 8) - droppedBytes c := by
  unfold base32Decode
  rw [List.length_take, length_flatMap_const _ 5 (fun _ => length_unpack40 _)]
  omega

theorem packSymbols_eight (a b c d e f g h : Nat) : packSymbols [a, b, c, d, e, f, g, h] =
    a * 2 ^ 35 + b * 2 ^ 30 + c * 2 ^ 25 + d * 2 ^ 20 + e * 2 ^ 15 + f * 2 ^ 10 + g * 2 ^ 5 + h := by
  simp only [packSymbols, List.foldl]
  omega

theorem unpack40_getElem? (vs : List Nat) {j : Nat} (hj : j < 5) :
    (unpack40 vs)[j]? = some (BitVec.ofNat 8 (packSymbols vs / 2 ^ (32 - 8 * j))) := by
  interval_cases j <;> simp [unpack40]

theorem group_of_fn (n : Nat) (c : Nat → Byte) (v : Nat → Nat) (hv : ∀ i, i < n → val32 (c i) = some (v i)) {k : Nat}
    (hk : 8 * k + 8 ≤ n) :
    packSymbols (((((List.range n).map c).drop (8 * k)).take 8).map symbolValue) = groupAcc v k := by
  have h : ((((List.range n).map c).drop (8 * k)).take 8).map symbolValue =
      [v (8 * k), v (8 * k + 1), v (8 * k + 2), v (8 * k + 3), v (8 * k + 4), v (8 * k + 5), v (8 * k + 6),
        v (8 * k + 7)] := by
    refine List.ext_getElem? fun j => ?_
    rw [List.getElem?_map, List.getElem?_take, List.getElem?_drop, List.getElem?_map]
    rcases Nat.lt_or_ge j 8 with hj | hj
    · rw [if_pos hj, List.getElem?_range (by omega)]
      simp only [Option.map_some, symbolValue, hv (8 * k + j) (by omega), Option.getD_some]
      interval_cases j <;> simp
    · rw [if_neg (by omega)]
      simp [hj]
  rw [h, packSymbols_eight, groupAcc]

/-- The byte at each place of the decoded text, as R135 and R137 give it. -/
theorem getElem?_base32Decode (n : Nat) (c : Nat → Byte) (v : Nat → Nat) (hv : ∀ i, i < n → val32 (c i) = some (v i))
    {q : Nat} (hq : q < 5 * (n / 8) - droppedBytes ((List.range n).map c)) :
    (base32Decode ((List.range n).map c))[q]? = some (decodedByte v q) := by
  have hk : q / 5 < n / 8 := by omega
  have hj : q % 5 < 5 := Nat.mod_lt _ (by omega)
  have hG : ((List.range n).map c).length / 8 = n / 8 := by simp
  unfold base32Decode
  rw [hG, List.getElem?_take, if_pos hq]
  conv_lhs => rw [← Nat.div_add_mod q 5]
  rw [getElem?_flatMap_const _ 5 (fun _ => length_unpack40 _) hk hj, unpack40_getElem? _ hj,
    group_of_fn n c v hv (by omega), decodedByte]

/-! ### Pads -/

theorem le_length_takeWhile {α : Type} (q : α → Bool) (l : List α) (p : Nat)
    (h : ∀ j, j < p → ∃ x, l[j]? = some x ∧ q x = true) : p ≤ (l.takeWhile q).length := by
  induction l generalizing p with
  | nil =>
    cases p with
    | zero => simp
    | succ p => obtain ⟨x, hx, _⟩ := h 0 (by omega); simp at hx
  | cons a l ih =>
    cases p with
    | zero => simp
    | succ p =>
      obtain ⟨x, hx, hq⟩ := h 0 (by omega)
      simp only [List.getElem?_cons_zero, Option.some.injEq] at hx
      subst hx
      rw [List.takeWhile_cons_of_pos hq, List.length_cons]
      exact Nat.succ_le_succ (ih p fun j hj => by simpa using h (j + 1) (by omega))

theorem length_takeWhile_le {α : Type} (q : α → Bool) (l : List α) (p : Nat) {x : α} (h : l[p]? = some x)
    (hq : q x = false) : (l.takeWhile q).length ≤ p := by
  induction l generalizing p with
  | nil => simp
  | cons a l ih =>
    cases p with
    | zero =>
      simp only [List.getElem?_cons_zero, Option.some.injEq] at h
      subst h
      simp [hq]
    | succ p =>
      cases ha : q a with
      | false => simp [ha]
      | true =>
        rw [List.takeWhile_cons_of_pos ha, List.length_cons]
        exact Nat.succ_le_succ (ih p (by simpa using h))

/-- The trailing pads of a text, counted up to 6 (R136). -/
theorem trailPads_of_fn {n : Nat} {c : Nat → Byte} {p : Nat} (hn : 8 ≤ n) (h : trailingPads n c p) :
    trailPads ((List.range n).map c) = p := by
  obtain ⟨hp, hpads, hend⟩ := h
  have hat : ∀ j, j < 8 → (((List.range n).map c).reverse.take 8)[j]? = some (c (n - 1 - j)) := by
    intro j hj
    rw [List.getElem?_take, if_pos hj, List.getElem?_reverse (by simp; omega)]
    have : n - 1 - j < n := by omega
    simp [this]
  have hle := le_length_takeWhile (· == padChar) (((List.range n).map c).reverse.take 8) p fun j hj =>
    ⟨_, hat j (by omega), by simp [hpads j hj, padChar]⟩
  unfold trailPads
  rcases Nat.lt_or_ge p 6 with h6 | h6
  · have := length_takeWhile_le (· == padChar) (((List.range n).map c).reverse.take 8) p (hat p (by omega))
      (by simpa [padChar] using hend h6)
    omega
  · omega

/-! ### Round trip -/

theorem blockAcc_lt (n : Nat) (b : Nat → Byte) (k : Nat) : blockAcc n b k < 2 ^ 40 := by
  have h : ∀ i, (if 5 * k + i < n then (b (5 * k + i)).toNat else 0) ≤ 255 := by
    intro i
    split
    · have := (b (5 * k + i)).isLt; omega
    · omega
  have h0 := h 0; have h1 := h 1; have h2 := h 2; have h3 := h 3; have h4 := h 4
  simp only [Nat.add_zero] at h0
  simp only [blockAcc]
  omega

/-- The lanes that hold only filler are zero: pads decode to the value the lane had. -/
theorem lane_zero {n : Nat} (b : Nat → Byte) {k j : Nat} (hk : 5 * k < n) (hj : j < 8)
    (h : realOfBlock (min 5 (n - 5 * k)) ≤ j) : blockAcc n b k / 2 ^ (35 - 5 * j) % 2 ^ 5 = 0 := by
  have hb : ∀ i, (b i).toNat ≤ 255 := fun i => by have := (b i).isLt; omega
  obtain ⟨m, hm⟩ : ∃ m, min 5 (n - 5 * k) = m := ⟨_, rfl⟩
  have h1 : 1 ≤ m ∧ m ≤ 5 := by omega
  rw [hm] at h
  have e0 := hb (5 * k)
  have e1 := hb (5 * k + 1)
  have e2 := hb (5 * k + 2)
  have e3 := hb (5 * k + 3)
  obtain ⟨l, u⟩ := h1
  simp only [blockAcc]
  interval_cases m
  all_goals simp only [realOfBlock] at h
  · have a1 : ¬ 5 * k + 1 < n := by omega
    have a2 : ¬ 5 * k + 2 < n := by omega
    have a3 : ¬ 5 * k + 3 < n := by omega
    have a4 : ¬ 5 * k + 4 < n := by omega
    simp only [a1, a2, a3, a4, hk, if_true, if_false]
    interval_cases j <;> omega
  · have a1 : 5 * k + 1 < n := by omega
    have a2 : ¬ 5 * k + 2 < n := by omega
    have a3 : ¬ 5 * k + 3 < n := by omega
    have a4 : ¬ 5 * k + 4 < n := by omega
    simp only [a1, a2, a3, a4, hk, if_true, if_false]
    interval_cases j <;> omega
  · have a1 : 5 * k + 1 < n := by omega
    have a2 : 5 * k + 2 < n := by omega
    have a3 : ¬ 5 * k + 3 < n := by omega
    have a4 : ¬ 5 * k + 4 < n := by omega
    simp only [a1, a2, a3, a4, hk, if_true, if_false]
    interval_cases j <;> omega
  · have a1 : 5 * k + 1 < n := by omega
    have a2 : 5 * k + 2 < n := by omega
    have a3 : 5 * k + 3 < n := by omega
    have a4 : ¬ 5 * k + 4 < n := by omega
    simp only [a1, a2, a3, a4, hk, if_true, if_false]
    interval_cases j
    omega
  · omega

/-- The value of each character of an encoded text is its block's lane. -/
theorem val32_encodedChar {n : Nat} (b : Nat → Byte) {p : Nat} (hp : p < 8 * ((n + 4) / 5)) :
    val32 (encodedChar n b p) = some (blockAcc n b (p / 8) / 2 ^ (35 - 5 * (p % 8)) % 2 ^ 5) := by
  have hlt : blockAcc n b (p / 8) / 2 ^ (35 - 5 * (p % 8)) % 2 ^ 5 ≤ 31 := by omega
  unfold encodedChar
  split
  · exact val32_enc32 hlt
  · rename_i h
    rw [lane_zero b (by omega) (Nat.mod_lt _ (by omega)) (by omega)]
    exact val32_pad

/-- Packing the lanes of a block gives the block back. -/
theorem groupAcc_lanes {x : Nat} (hx : x < 2 ^ 40) {v : Nat → Nat} {k : Nat}
    (hv : ∀ j, j < 8 → v (8 * k + j) = x / 2 ^ (35 - 5 * j) % 2 ^ 5) : groupAcc v k = x := by
  have h0 := hv 0 (by omega); have h1 := hv 1 (by omega); have h2 := hv 2 (by omega); have h3 := hv 3 (by omega)
  have h4 := hv 4 (by omega); have h5 := hv 5 (by omega); have h6 := hv 6 (by omega); have h7 := hv 7 (by omega)
  simp only [Nat.add_zero] at h0
  simp only [groupAcc, h0, h1, h2, h3, h4, h5, h6, h7]
  omega

/-- A byte of a block is the byte its value has at that place. -/
theorem byte_of_blockAcc {n : Nat} (b : Nat → Byte) {q : Nat} (hq : q < n) :
    BitVec.ofNat 8 (blockAcc n b (q / 5) / 2 ^ (32 - 8 * (q % 5))) = b q := by
  have hb : ∀ i, (if 5 * (q / 5) + i < n then (b (5 * (q / 5) + i)).toNat else 0) ≤ 255 := fun i => by
    split
    · have := (b (5 * (q / 5) + i)).isLt; omega
    · omega
  have hq5 : q % 5 < 5 := Nat.mod_lt _ (by omega)
  have h0 := hb 0; have h1 := hb 1; have h2 := hb 2; have h3 := hb 3; have h4 := hb 4
  simp only [Nat.add_zero] at h0
  have hself : (if 5 * (q / 5) + q % 5 < n then (b (5 * (q / 5) + q % 5)).toNat else 0) = (b q).toNat := by
    rw [Nat.div_add_mod, if_pos hq]
  apply BitVec.eq_of_toNat_eq
  rw [BitVec.toNat_ofNat, ← hself, blockAcc]
  generalize q % 5 = r at *
  interval_cases r
  all_goals try simp only [Nat.add_zero] at *
  all_goals omega

/-! ### The first character that is rejected -/

theorem firstInvalid_none {cs : List Byte} {i : Nat} : firstInvalid i cs = none ↔ ∀ c ∈ cs, val32 c ≠ none := by
  induction cs generalizing i with
  | nil => simp [firstInvalid]
  | cons c cs ih =>
    simp only [firstInvalid]
    cases h : val32 c with
    | none => simp [h]
    | some v => simp [h, ih]

/-- The error names the lowest index. -/
theorem firstInvalid_some {cs : List Byte} {k : Nat} {e : CmdError} (h : firstInvalid k cs = some e) :
    ∃ j c, cs[j]? = some c ∧ val32 c = none ∧ (∀ x, x < j → ∀ d, cs[x]? = some d → val32 d ≠ none) ∧
      e = .invalidCharacter c (k + j) := by
  induction cs generalizing k with
  | nil => simp [firstInvalid] at h
  | cons c cs ih =>
    simp only [firstInvalid] at h
    cases hc : val32 c with
    | none => rw [hc] at h; cases h; exact ⟨0, c, rfl, hc, by simp, rfl⟩
    | some v =>
      rw [hc] at h
      obtain ⟨j, d, h1, h2, h3, h4⟩ := ih h
      refine ⟨j + 1, d, h1, h2, fun x hx y hy => ?_, by rw [h4]; congr 1; omega⟩
      cases x with
      | zero => simp at hy; subst hy; simp [hc]
      | succ x => exact h3 x (by omega) y (by simpa using hy)

end Sys2Proof.Machine
end

