-- ==== Sys2Proof/Laws/Memory.lean ====
section
/-! SUPPORT. The laws of a buffer: every operation keeps the canonical form, and what a read gives after each. -/

namespace Sys2Proof.Machine

theorem Memory.wf_nil : Memory.wf [] := List.Pairwise.nil

@[simp] theorem Memory.read_nil (i : Nat) : Memory.read [] i = none := rfl

theorem Memory.read_cons (k : Nat) (b : Byte) (m : Memory) (i : Nat) :
    Memory.read ((k, b) :: m) i = if k = i then some b else Memory.read m i := rfl

/-- The indexes of a written buffer are the old ones and the written one. -/
theorem Memory.mem_write {m : Memory} {i : Nat} {b : Byte} {c : Host.Cell} (h : c ∈ m.write i b) :
    c = (i, b) ∨ c ∈ m := by
  induction m with
  | nil => simpa [Memory.write] using h
  | cons kv rest ih =>
    obtain ⟨k, v⟩ := kv
    simp only [Memory.write] at h
    split at h
    · simpa using h
    · split at h
      · simp only [List.mem_cons] at h ⊢
        rcases h with h | h
        · exact .inl h
        · exact .inr (.inr h)
      · simp only [List.mem_cons] at h ⊢
        rcases h with h | h
        · exact .inr (.inl h)
        · exact (ih h).imp_right .inr

/-- A write keeps the canonical form. -/
theorem Memory.wf_write {m : Memory} (h : m.wf) (i : Nat) (b : Byte) : (m.write i b).wf := by
  induction m with
  | nil => exact List.pairwise_singleton _ _
  | cons kv rest ih =>
    obtain ⟨k, v⟩ := kv
    obtain ⟨hk, hr⟩ := List.pairwise_cons.1 h
    simp only [Memory.write]
    split
    · rename_i hik
      refine List.pairwise_cons.2 ⟨fun c hc => ?_, h⟩
      rcases List.mem_cons.1 hc with rfl | hc
      · exact hik
      · exact Nat.lt_trans hik (hk c hc)
    · split
      · rename_i hik
        exact List.pairwise_cons.2 ⟨fun c hc => hik ▸ hk c hc, hr⟩
      · refine List.pairwise_cons.2 ⟨fun c hc => ?_, ih hr⟩
        rcases Memory.mem_write hc with rfl | hc
        · show k < i
          omega
        · exact hk c hc

/-- A read after a write: the byte written at its index, and every other byte as before. -/
theorem Memory.read_write (m : Memory) (i : Nat) (b : Byte) (j : Nat) :
    (m.write i b).read j = if j = i then some b else m.read j := by
  induction m with
  | nil => simp only [Memory.write, Memory.read_cons, Memory.read_nil, eq_comm]
  | cons kv rest ih =>
    obtain ⟨k, v⟩ := kv
    simp only [Memory.write]
    split
    · simp only [Memory.read_cons, eq_comm (a := i)]
    · split
      · rename_i hik
        subst hik
        by_cases hj : j = i
        · simp [Memory.read_cons, hj]
        · simp [Memory.read_cons, hj, Ne.symm hj]
      · simp only [Memory.read_cons, ih]
        by_cases hj : j = i
        · subst hj
          have : k ≠ j := by omega
          simp [this]
        · simp [hj]

/-- Writing the same byte again changes nothing. -/
theorem Memory.write_write (m : Memory) (i : Nat) (b : Byte) : (m.write i b).write i b = m.write i b := by
  induction m with
  | nil => simp [Memory.write]
  | cons kv rest ih =>
    obtain ⟨k, v⟩ := kv
    by_cases h1 : i < k
    · simp [Memory.write, h1]
    · by_cases h2 : i = k
      · simp [Memory.write, h2]
      · simp [Memory.write, h1, h2, ih]

/-- The indexes of the buffer of a byte list. -/
theorem Memory.mem_ofBytes {i : Nat} {bs : List Byte} {c : Host.Cell} (h : c ∈ Memory.ofBytes i bs) :
    i ≤ c.1 ∧ c.1 < i + bs.length := by
  induction bs generalizing i with
  | nil => simp [Memory.ofBytes] at h
  | cons b bs ih =>
    rcases List.mem_cons.1 h with rfl | h
    · simp
    · have := ih h
      simp only [List.length_cons]
      omega

theorem Memory.wf_ofBytes (i : Nat) (bs : List Byte) : (Memory.ofBytes i bs).wf := by
  induction bs generalizing i with
  | nil => exact Memory.wf_nil
  | cons b bs ih => exact List.pairwise_cons.2 ⟨fun c hc => (Memory.mem_ofBytes hc).1, ih (i + 1)⟩

/-- The buffer of a byte list holds exactly its bytes. -/
theorem Memory.read_ofBytes (i : Nat) (bs : List Byte) (j : Nat) :
    (Memory.ofBytes i bs).read j = if i ≤ j then bs[j - i]? else none := by
  induction bs generalizing i with
  | nil => simp [Memory.ofBytes]
  | cons b bs ih =>
    simp only [Memory.ofBytes, Memory.read_cons, ih]
    rcases Nat.lt_trichotomy i j with h | h | h
    · have h1 : i ≠ j := by omega
      have h2 : j - i = (j - (i + 1)) + 1 := by omega
      simp [h1, Nat.le_of_lt h, Nat.succ_le_of_lt h, h2]
    · simp [h]
    · have h1 : i ≠ j := by omega
      have h2 : ¬ i + 1 ≤ j := by omega
      simp [h1, h2, Nat.not_le.2 h]

@[simp] theorem Memory.read_ofBytes_zero (bs : List Byte) (j : Nat) : (Memory.ofBytes 0 bs).read j = bs[j]? := by
  simp [Memory.read_ofBytes]

/-- The bytes read, when all of them are specified. -/
theorem Memory.readBytes_eq_some {m : Memory} {i n : Nat} {bs : List Byte} :
    m.readBytes i n = some bs ↔ bs.length = n ∧ ∀ j, j < n → m.read (i + j) = bs[j]? := by
  induction n generalizing i bs with
  | zero =>
    simp only [Memory.readBytes, Option.some.injEq, Nat.not_lt_zero, false_implies, implies_true, and_true]
    exact ⟨fun h => h ▸ rfl, fun h => (List.eq_nil_of_length_eq_zero h).symm⟩
  | succ n ih =>
    simp only [Memory.readBytes]
    constructor
    · intro h
      split at h
      · rename_i b bs' hb hbs
        obtain ⟨hl, hr⟩ := ih.1 hbs
        cases h
        refine ⟨by simp [hl], fun j hj => ?_⟩
        cases j with
        | zero => simpa using hb
        | succ j => simpa [Nat.add_assoc, Nat.add_comm 1] using hr j (by omega)
      · cases h
    · rintro ⟨hl, hr⟩
      cases bs with
      | nil => simp at hl
      | cons b bs =>
        have h0 : m.read i = some b := by simpa using hr 0 (by omega)
        have h1 : m.readBytes (i + 1) n = some bs := ih.2 ⟨by simpa using hl, fun j hj => by
          simpa [Nat.add_assoc, Nat.add_comm 1] using hr (j + 1) (by omega)⟩
        rw [h0, h1]

/-- A read of bytes fails exactly when one of them is unspecified. -/
theorem Memory.readBytes_eq_none {m : Memory} {i n : Nat} :
    m.readBytes i n = none ↔ ∃ j, j < n ∧ m.read (i + j) = none := by
  induction n generalizing i with
  | zero => simp [Memory.readBytes]
  | succ n ih =>
    simp only [Memory.readBytes]
    constructor
    · intro h
      split at h
      · cases h
      · rename_i hx
        cases hb : m.read i with
        | none => exact ⟨0, by omega, by simpa using hb⟩
        | some b =>
          cases hbs : m.readBytes (i + 1) n with
          | none =>
            obtain ⟨j, hj, hr⟩ := ih.1 hbs
            exact ⟨j + 1, by omega, by simpa [Nat.add_assoc, Nat.add_comm 1] using hr⟩
          | some bs => exact absurd hbs (hx b bs hb)
    · rintro ⟨j, hj, hr⟩
      split
      · rename_i b bs hb hbs
        cases j with
        | zero => simp [hb] at hr
        | succ j =>
          have := (ih (i := i + 1)).2 ⟨j, by omega, by simpa [Nat.add_assoc, Nat.add_comm 1] using hr⟩
          simp [hbs] at this
      · rfl

/-- Buffers that read alike give the same bytes. -/
theorem Memory.readBytes_congr {m m' : Memory} (h : ∀ j, m.read j = m'.read j) (i n : Nat) :
    m.readBytes i n = m'.readBytes i n := by
  induction n generalizing i with
  | zero => rfl
  | succ n ih => simp only [Memory.readBytes, h, ih]

/-- A byte is specified exactly when an entry lists its index. -/
theorem Memory.read_isSome {m : Memory} {i : Nat} : (m.read i).isSome = true ↔ ∃ c ∈ m, c.1 = i := by
  induction m with
  | nil => simp
  | cons kv rest ih =>
    obtain ⟨k, v⟩ := kv
    rw [Memory.read_cons]
    split
    · rename_i h; simp [h]
    · rename_i h; simp [h, ih]

end Sys2Proof.Machine
end

