-- ==== Sys2Proof/Laws/State.lean ====
section
/-! SUPPORT. One lemma per field per state operation, so that no later proof unfolds a record update. -/

namespace Sys2Proof.Machine

/-! ### `State.recordFault` -/

@[simp] theorem State.recordFault_cfg (s : State) (k : FaultKind) : (s.recordFault k).cfg = s.cfg := rfl
@[simp] theorem State.recordFault_cmd (s : State) (k : FaultKind) : (s.recordFault k).cmd = s.cmd := rfl
@[simp] theorem State.recordFault_status (s : State) (k : FaultKind) : (s.recordFault k).status = s.status := rfl
@[simp] theorem State.recordFault_errinfo (s : State) (k : FaultKind) : (s.recordFault k).errinfo = s.errinfo := rfl
@[simp] theorem State.recordFault_inlen (s : State) (k : FaultKind) : (s.recordFault k).inlen = s.inlen := rfl
@[simp] theorem State.recordFault_outlen (s : State) (k : FaultKind) : (s.recordFault k).outlen = s.outlen := rfl
@[simp] theorem State.recordFault_ctrLo (s : State) (k : FaultKind) : (s.recordFault k).ctrLo = s.ctrLo := rfl
@[simp] theorem State.recordFault_ctrHi (s : State) (k : FaultKind) : (s.recordFault k).ctrHi = s.ctrHi := rfl
@[simp] theorem State.recordFault_value (s : State) (k : FaultKind) : (s.recordFault k).value = s.value := rfl
@[simp] theorem State.recordFault_offset (s : State) (k : FaultKind) : (s.recordFault k).offset = s.offset := rfl
@[simp] theorem State.recordFault_code (s : State) (k : FaultKind) : (s.recordFault k).code = s.code := rfl
@[simp] theorem State.recordFault_ibuf (s : State) (k : FaultKind) : (s.recordFault k).ibuf = s.ibuf := rfl
@[simp] theorem State.recordFault_obuf (s : State) (k : FaultKind) : (s.recordFault k).obuf = s.obuf := rfl
@[simp] theorem State.recordFault_faults (s : State) (k : FaultKind) : (s.recordFault k).faults = s.faults.insert k := rfl
@[simp] theorem State.recordFault_refusal (s : State) (k : FaultKind) : (s.recordFault k).refusal = s.refusal := rfl
@[simp] theorem State.recordFault_host (s : State) (k : FaultKind) : (s.recordFault k).host = s.host := rfl
@[simp] theorem State.recordFault_responses (s : State) (k : FaultKind) : (s.recordFault k).responses = s.responses := rfl
@[simp] theorem State.recordFault_schedule (s : State) (k : FaultKind) : (s.recordFault k).schedule = s.schedule := rfl

/-! ### `State.recordRefusal` -/

@[simp] theorem State.recordRefusal_cfg (s : State) : (s.recordRefusal).cfg = s.cfg := rfl
@[simp] theorem State.recordRefusal_cmd (s : State) : (s.recordRefusal).cmd = s.cmd := rfl
@[simp] theorem State.recordRefusal_status (s : State) : (s.recordRefusal).status = s.status := rfl
@[simp] theorem State.recordRefusal_errinfo (s : State) : (s.recordRefusal).errinfo = s.errinfo := rfl
@[simp] theorem State.recordRefusal_inlen (s : State) : (s.recordRefusal).inlen = s.inlen := rfl
@[simp] theorem State.recordRefusal_outlen (s : State) : (s.recordRefusal).outlen = s.outlen := rfl
@[simp] theorem State.recordRefusal_ctrLo (s : State) : (s.recordRefusal).ctrLo = s.ctrLo := rfl
@[simp] theorem State.recordRefusal_ctrHi (s : State) : (s.recordRefusal).ctrHi = s.ctrHi := rfl
@[simp] theorem State.recordRefusal_value (s : State) : (s.recordRefusal).value = s.value := rfl
@[simp] theorem State.recordRefusal_offset (s : State) : (s.recordRefusal).offset = s.offset := rfl
@[simp] theorem State.recordRefusal_code (s : State) : (s.recordRefusal).code = s.code := rfl
@[simp] theorem State.recordRefusal_ibuf (s : State) : (s.recordRefusal).ibuf = s.ibuf := rfl
@[simp] theorem State.recordRefusal_obuf (s : State) : (s.recordRefusal).obuf = s.obuf := rfl
@[simp] theorem State.recordRefusal_faults (s : State) : (s.recordRefusal).faults = s.faults := rfl
@[simp] theorem State.recordRefusal_refusal (s : State) : (s.recordRefusal).refusal = true := rfl
@[simp] theorem State.recordRefusal_host (s : State) : (s.recordRefusal).host = s.host := rfl
@[simp] theorem State.recordRefusal_responses (s : State) : (s.recordRefusal).responses = s.responses := rfl
@[simp] theorem State.recordRefusal_schedule (s : State) : (s.recordRefusal).schedule = s.schedule := rfl

/-! ### `State.issue` -/

@[simp] theorem State.issue_cfg (s : State) (w : Word) : (s.issue w).cfg = s.cfg := rfl
@[simp] theorem State.issue_cmd (s : State) (w : Word) : (s.issue w).cmd = w := rfl
@[simp] theorem State.issue_status (s : State) (w : Word) : (s.issue w).status = statusBusy := rfl
@[simp] theorem State.issue_errinfo (s : State) (w : Word) : (s.issue w).errinfo = 0 := rfl
@[simp] theorem State.issue_inlen (s : State) (w : Word) : (s.issue w).inlen = s.inlen := rfl
@[simp] theorem State.issue_outlen (s : State) (w : Word) : (s.issue w).outlen = s.outlen := rfl
@[simp] theorem State.issue_ctrLo (s : State) (w : Word) : (s.issue w).ctrLo = s.ctrLo := rfl
@[simp] theorem State.issue_ctrHi (s : State) (w : Word) : (s.issue w).ctrHi = s.ctrHi := rfl
@[simp] theorem State.issue_value (s : State) (w : Word) : (s.issue w).value = s.value := rfl
@[simp] theorem State.issue_offset (s : State) (w : Word) : (s.issue w).offset = s.offset := rfl
@[simp] theorem State.issue_code (s : State) (w : Word) : (s.issue w).code = s.code := rfl
@[simp] theorem State.issue_ibuf (s : State) (w : Word) : (s.issue w).ibuf = s.ibuf := rfl
@[simp] theorem State.issue_obuf (s : State) (w : Word) : (s.issue w).obuf = s.obuf := rfl
@[simp] theorem State.issue_faults (s : State) (w : Word) : (s.issue w).faults = s.faults := rfl
@[simp] theorem State.issue_refusal (s : State) (w : Word) : (s.issue w).refusal = s.refusal := rfl
@[simp] theorem State.issue_host (s : State) (w : Word) : (s.issue w).host = s.host := rfl
@[simp] theorem State.issue_responses (s : State) (w : Word) : (s.issue w).responses = s.responses := rfl
@[simp] theorem State.issue_schedule (s : State) (w : Word) : (s.issue w).schedule = s.schedule := rfl

/-! ### `State.completeError` -/

@[simp] theorem State.completeError_cfg (s : State) (e : CmdError) : (s.completeError e).cfg = s.cfg := rfl
@[simp] theorem State.completeError_cmd (s : State) (e : CmdError) : (s.completeError e).cmd = s.cmd := rfl
@[simp] theorem State.completeError_status (s : State) (e : CmdError) : (s.completeError e).status = statusError := rfl
@[simp] theorem State.completeError_errinfo (s : State) (e : CmdError) : (s.completeError e).errinfo = errinfoOf e := rfl
@[simp] theorem State.completeError_inlen (s : State) (e : CmdError) : (s.completeError e).inlen = s.inlen := rfl
@[simp] theorem State.completeError_outlen (s : State) (e : CmdError) : (s.completeError e).outlen = s.outlen := rfl
@[simp] theorem State.completeError_ctrLo (s : State) (e : CmdError) : (s.completeError e).ctrLo = s.ctrLo := rfl
@[simp] theorem State.completeError_ctrHi (s : State) (e : CmdError) : (s.completeError e).ctrHi = s.ctrHi := rfl
@[simp] theorem State.completeError_value (s : State) (e : CmdError) : (s.completeError e).value = s.value := rfl
@[simp] theorem State.completeError_offset (s : State) (e : CmdError) : (s.completeError e).offset = s.offset := rfl
@[simp] theorem State.completeError_code (s : State) (e : CmdError) : (s.completeError e).code = s.code := rfl
@[simp] theorem State.completeError_ibuf (s : State) (e : CmdError) : (s.completeError e).ibuf = s.ibuf := rfl
@[simp] theorem State.completeError_obuf (s : State) (e : CmdError) : (s.completeError e).obuf = s.obuf := rfl
@[simp] theorem State.completeError_faults (s : State) (e : CmdError) : (s.completeError e).faults = s.faults := rfl
@[simp] theorem State.completeError_refusal (s : State) (e : CmdError) : (s.completeError e).refusal = s.refusal := rfl
@[simp] theorem State.completeError_host (s : State) (e : CmdError) : (s.completeError e).host = s.host := rfl
@[simp] theorem State.completeError_responses (s : State) (e : CmdError) : (s.completeError e).responses = s.responses := rfl
@[simp] theorem State.completeError_schedule (s : State) (e : CmdError) : (s.completeError e).schedule = s.schedule := rfl

/-! ### `State.completeSuccess` -/

@[simp] theorem State.completeSuccess_cfg (s : State) : (s.completeSuccess).cfg = s.cfg := rfl
@[simp] theorem State.completeSuccess_cmd (s : State) : (s.completeSuccess).cmd = s.cmd := rfl
@[simp] theorem State.completeSuccess_status (s : State) : (s.completeSuccess).status = statusSuccess := rfl
@[simp] theorem State.completeSuccess_errinfo (s : State) : (s.completeSuccess).errinfo = s.errinfo := rfl
@[simp] theorem State.completeSuccess_inlen (s : State) : (s.completeSuccess).inlen = s.inlen := rfl
@[simp] theorem State.completeSuccess_outlen (s : State) : (s.completeSuccess).outlen = s.outlen := rfl
@[simp] theorem State.completeSuccess_ctrLo (s : State) : (s.completeSuccess).ctrLo = s.ctrLo := rfl
@[simp] theorem State.completeSuccess_ctrHi (s : State) : (s.completeSuccess).ctrHi = s.ctrHi := rfl
@[simp] theorem State.completeSuccess_value (s : State) : (s.completeSuccess).value = s.value := rfl
@[simp] theorem State.completeSuccess_offset (s : State) : (s.completeSuccess).offset = s.offset := rfl
@[simp] theorem State.completeSuccess_code (s : State) : (s.completeSuccess).code = s.code := rfl
@[simp] theorem State.completeSuccess_ibuf (s : State) : (s.completeSuccess).ibuf = s.ibuf := rfl
@[simp] theorem State.completeSuccess_obuf (s : State) : (s.completeSuccess).obuf = s.obuf := rfl
@[simp] theorem State.completeSuccess_faults (s : State) : (s.completeSuccess).faults = s.faults := rfl
@[simp] theorem State.completeSuccess_refusal (s : State) : (s.completeSuccess).refusal = s.refusal := rfl
@[simp] theorem State.completeSuccess_host (s : State) : (s.completeSuccess).host = s.host := rfl
@[simp] theorem State.completeSuccess_responses (s : State) : (s.completeSuccess).responses = s.responses := rfl
@[simp] theorem State.completeSuccess_schedule (s : State) : (s.completeSuccess).schedule = s.schedule := rfl

/-! ### `State.commitOutput` -/

@[simp] theorem State.commitOutput_cfg (s : State) (out : List Byte) : (s.commitOutput out).cfg = s.cfg := rfl
@[simp] theorem State.commitOutput_cmd (s : State) (out : List Byte) : (s.commitOutput out).cmd = s.cmd := rfl
@[simp] theorem State.commitOutput_status (s : State) (out : List Byte) : (s.commitOutput out).status = s.status := rfl
@[simp] theorem State.commitOutput_errinfo (s : State) (out : List Byte) : (s.commitOutput out).errinfo = s.errinfo := rfl
@[simp] theorem State.commitOutput_inlen (s : State) (out : List Byte) : (s.commitOutput out).inlen = s.inlen := rfl
@[simp] theorem State.commitOutput_outlen (s : State) (out : List Byte) : (s.commitOutput out).outlen = BitVec.ofNat 32 out.length &&& Reg.mask .outlen := rfl
@[simp] theorem State.commitOutput_ctrLo (s : State) (out : List Byte) : (s.commitOutput out).ctrLo = s.ctrLo := rfl
@[simp] theorem State.commitOutput_ctrHi (s : State) (out : List Byte) : (s.commitOutput out).ctrHi = s.ctrHi := rfl
@[simp] theorem State.commitOutput_value (s : State) (out : List Byte) : (s.commitOutput out).value = s.value := rfl
@[simp] theorem State.commitOutput_offset (s : State) (out : List Byte) : (s.commitOutput out).offset = s.offset := rfl
@[simp] theorem State.commitOutput_code (s : State) (out : List Byte) : (s.commitOutput out).code = s.code := rfl
@[simp] theorem State.commitOutput_ibuf (s : State) (out : List Byte) : (s.commitOutput out).ibuf = s.ibuf := rfl
@[simp] theorem State.commitOutput_obuf (s : State) (out : List Byte) : (s.commitOutput out).obuf = Memory.ofBytes 0 out := rfl
@[simp] theorem State.commitOutput_faults (s : State) (out : List Byte) : (s.commitOutput out).faults = s.faults := rfl
@[simp] theorem State.commitOutput_refusal (s : State) (out : List Byte) : (s.commitOutput out).refusal = s.refusal := rfl
@[simp] theorem State.commitOutput_host (s : State) (out : List Byte) : (s.commitOutput out).host = s.host := rfl
@[simp] theorem State.commitOutput_responses (s : State) (out : List Byte) : (s.commitOutput out).responses = s.responses := rfl
@[simp] theorem State.commitOutput_schedule (s : State) (out : List Byte) : (s.commitOutput out).schedule = s.schedule := rfl

/-! ### `State.commitTrunc` -/

@[simp] theorem State.commitTrunc_cfg (s : State) (off : Nat) (masked : Word) : (s.commitTrunc off masked).cfg = s.cfg := rfl
@[simp] theorem State.commitTrunc_cmd (s : State) (off : Nat) (masked : Word) : (s.commitTrunc off masked).cmd = s.cmd := rfl
@[simp] theorem State.commitTrunc_status (s : State) (off : Nat) (masked : Word) : (s.commitTrunc off masked).status = s.status := rfl
@[simp] theorem State.commitTrunc_errinfo (s : State) (off : Nat) (masked : Word) : (s.commitTrunc off masked).errinfo = s.errinfo := rfl
@[simp] theorem State.commitTrunc_inlen (s : State) (off : Nat) (masked : Word) : (s.commitTrunc off masked).inlen = s.inlen := rfl
@[simp] theorem State.commitTrunc_outlen (s : State) (off : Nat) (masked : Word) : (s.commitTrunc off masked).outlen = s.outlen := rfl
@[simp] theorem State.commitTrunc_ctrLo (s : State) (off : Nat) (masked : Word) : (s.commitTrunc off masked).ctrLo = s.ctrLo := rfl
@[simp] theorem State.commitTrunc_ctrHi (s : State) (off : Nat) (masked : Word) : (s.commitTrunc off masked).ctrHi = s.ctrHi := rfl
@[simp] theorem State.commitTrunc_value (s : State) (off : Nat) (masked : Word) : (s.commitTrunc off masked).value = masked &&& Reg.mask .value := rfl
@[simp] theorem State.commitTrunc_offset (s : State) (off : Nat) (masked : Word) : (s.commitTrunc off masked).offset = BitVec.ofNat 32 off &&& Reg.mask .offset := rfl
@[simp] theorem State.commitTrunc_code (s : State) (off : Nat) (masked : Word) : (s.commitTrunc off masked).code = s.code := rfl
@[simp] theorem State.commitTrunc_ibuf (s : State) (off : Nat) (masked : Word) : (s.commitTrunc off masked).ibuf = s.ibuf := rfl
@[simp] theorem State.commitTrunc_obuf (s : State) (off : Nat) (masked : Word) : (s.commitTrunc off masked).obuf = s.obuf := rfl
@[simp] theorem State.commitTrunc_faults (s : State) (off : Nat) (masked : Word) : (s.commitTrunc off masked).faults = s.faults := rfl
@[simp] theorem State.commitTrunc_refusal (s : State) (off : Nat) (masked : Word) : (s.commitTrunc off masked).refusal = s.refusal := rfl
@[simp] theorem State.commitTrunc_host (s : State) (off : Nat) (masked : Word) : (s.commitTrunc off masked).host = s.host := rfl
@[simp] theorem State.commitTrunc_responses (s : State) (off : Nat) (masked : Word) : (s.commitTrunc off masked).responses = s.responses := rfl
@[simp] theorem State.commitTrunc_schedule (s : State) (off : Nat) (masked : Word) : (s.commitTrunc off masked).schedule = s.schedule := rfl

/-! ### `State.commitCode` -/

@[simp] theorem State.commitCode_cfg (s : State) (code : Nat) : (s.commitCode code).cfg = s.cfg := rfl
@[simp] theorem State.commitCode_cmd (s : State) (code : Nat) : (s.commitCode code).cmd = s.cmd := rfl
@[simp] theorem State.commitCode_status (s : State) (code : Nat) : (s.commitCode code).status = s.status := rfl
@[simp] theorem State.commitCode_errinfo (s : State) (code : Nat) : (s.commitCode code).errinfo = s.errinfo := rfl
@[simp] theorem State.commitCode_inlen (s : State) (code : Nat) : (s.commitCode code).inlen = s.inlen := rfl
@[simp] theorem State.commitCode_outlen (s : State) (code : Nat) : (s.commitCode code).outlen = s.outlen := rfl
@[simp] theorem State.commitCode_ctrLo (s : State) (code : Nat) : (s.commitCode code).ctrLo = s.ctrLo := rfl
@[simp] theorem State.commitCode_ctrHi (s : State) (code : Nat) : (s.commitCode code).ctrHi = s.ctrHi := rfl
@[simp] theorem State.commitCode_value (s : State) (code : Nat) : (s.commitCode code).value = s.value := rfl
@[simp] theorem State.commitCode_offset (s : State) (code : Nat) : (s.commitCode code).offset = s.offset := rfl
@[simp] theorem State.commitCode_code (s : State) (code : Nat) : (s.commitCode code).code = BitVec.ofNat 32 code &&& Reg.mask .code := rfl
@[simp] theorem State.commitCode_ibuf (s : State) (code : Nat) : (s.commitCode code).ibuf = s.ibuf := rfl
@[simp] theorem State.commitCode_obuf (s : State) (code : Nat) : (s.commitCode code).obuf = s.obuf := rfl
@[simp] theorem State.commitCode_faults (s : State) (code : Nat) : (s.commitCode code).faults = s.faults := rfl
@[simp] theorem State.commitCode_refusal (s : State) (code : Nat) : (s.commitCode code).refusal = s.refusal := rfl
@[simp] theorem State.commitCode_host (s : State) (code : Nat) : (s.commitCode code).host = s.host := rfl
@[simp] theorem State.commitCode_responses (s : State) (code : Nat) : (s.commitCode code).responses = s.responses := rfl
@[simp] theorem State.commitCode_schedule (s : State) (code : Nat) : (s.commitCode code).schedule = s.schedule := rfl

/-! ### `State.platformReset` -/

@[simp] theorem State.platformReset_cfg (s : State) : (s.platformReset).cfg = s.cfg := rfl
@[simp] theorem State.platformReset_cmd (s : State) : (s.platformReset).cmd = 0 := rfl
@[simp] theorem State.platformReset_status (s : State) : (s.platformReset).status = 0 := rfl
@[simp] theorem State.platformReset_errinfo (s : State) : (s.platformReset).errinfo = 0 := rfl
@[simp] theorem State.platformReset_inlen (s : State) : (s.platformReset).inlen = 0 := rfl
@[simp] theorem State.platformReset_outlen (s : State) : (s.platformReset).outlen = 0 := rfl
@[simp] theorem State.platformReset_ctrLo (s : State) : (s.platformReset).ctrLo = 0 := rfl
@[simp] theorem State.platformReset_ctrHi (s : State) : (s.platformReset).ctrHi = 0 := rfl
@[simp] theorem State.platformReset_value (s : State) : (s.platformReset).value = 0 := rfl
@[simp] theorem State.platformReset_offset (s : State) : (s.platformReset).offset = 0 := rfl
@[simp] theorem State.platformReset_code (s : State) : (s.platformReset).code = 0 := rfl
@[simp] theorem State.platformReset_ibuf (s : State) : (s.platformReset).ibuf = [] := rfl
@[simp] theorem State.platformReset_obuf (s : State) : (s.platformReset).obuf = [] := rfl
@[simp] theorem State.platformReset_faults (s : State) : (s.platformReset).faults = s.faults := rfl
@[simp] theorem State.platformReset_refusal (s : State) : (s.platformReset).refusal = s.refusal := rfl
@[simp] theorem State.platformReset_host (s : State) : (s.platformReset).host = s.host := rfl
@[simp] theorem State.platformReset_responses (s : State) : (s.platformReset).responses = s.responses := rfl
@[simp] theorem State.platformReset_schedule (s : State) : (s.platformReset).schedule = s.schedule := rfl

/-! ### `State.respond` -/

@[simp] theorem State.respond_cfg (s : State) (r : Response) : (s.respond r).cfg = s.cfg := rfl
@[simp] theorem State.respond_cmd (s : State) (r : Response) : (s.respond r).cmd = s.cmd := rfl
@[simp] theorem State.respond_status (s : State) (r : Response) : (s.respond r).status = s.status := rfl
@[simp] theorem State.respond_errinfo (s : State) (r : Response) : (s.respond r).errinfo = s.errinfo := rfl
@[simp] theorem State.respond_inlen (s : State) (r : Response) : (s.respond r).inlen = s.inlen := rfl
@[simp] theorem State.respond_outlen (s : State) (r : Response) : (s.respond r).outlen = s.outlen := rfl
@[simp] theorem State.respond_ctrLo (s : State) (r : Response) : (s.respond r).ctrLo = s.ctrLo := rfl
@[simp] theorem State.respond_ctrHi (s : State) (r : Response) : (s.respond r).ctrHi = s.ctrHi := rfl
@[simp] theorem State.respond_value (s : State) (r : Response) : (s.respond r).value = s.value := rfl
@[simp] theorem State.respond_offset (s : State) (r : Response) : (s.respond r).offset = s.offset := rfl
@[simp] theorem State.respond_code (s : State) (r : Response) : (s.respond r).code = s.code := rfl
@[simp] theorem State.respond_ibuf (s : State) (r : Response) : (s.respond r).ibuf = s.ibuf := rfl
@[simp] theorem State.respond_obuf (s : State) (r : Response) : (s.respond r).obuf = s.obuf := rfl
@[simp] theorem State.respond_faults (s : State) (r : Response) : (s.respond r).faults = s.faults := rfl
@[simp] theorem State.respond_refusal (s : State) (r : Response) : (s.respond r).refusal = s.refusal := rfl
@[simp] theorem State.respond_host (s : State) (r : Response) : (s.respond r).host = s.host := rfl
@[simp] theorem State.respond_responses (s : State) (r : Response) : (s.respond r).responses = r :: s.responses := rfl
@[simp] theorem State.respond_schedule (s : State) (r : Response) : (s.respond r).schedule = s.schedule := rfl

end Sys2Proof.Machine
end

