-- ==== Sys2Proof/Laws/Operands.lean ====
section
/-! SUPPORT. The operands and registers in the words of the spec: numbers and bits instead of masks. -/

namespace Sys2Proof.Machine

theorem and_eq_ofNat_mod (w : Word) (k : Nat) (hk : k ≤ 32) :
    w &&& BitVec.ofNat 32 (2 ^ k - 1) = BitVec.ofNat 32 (w.toNat % 2 ^ k) := by
  apply BitVec.eq_of_toNat_eq
  have h1 : (2 : Nat) ^ k ≤ 2 ^ 32 := Nat.pow_le_pow_right (by omega) hk
  have h3 : 0 < (2 : Nat) ^ k := Nat.two_pow_pos k
  have h2 : w.toNat % 2 ^ k < 2 ^ 32 := Nat.lt_of_lt_of_le (Nat.mod_lt _ h3) h1
  rw [BitVec.toNat_and, BitVec.toNat_ofNat, BitVec.toNat_ofNat, Nat.mod_eq_of_lt h2,
    Nat.mod_eq_of_lt (a := 2 ^ k - 1) (by omega), Nat.and_two_pow_sub_one_eq_mod]

theorem toNat_mask (w : Word) (k : Nat) (hk : k ≤ 32) :
    (w &&& BitVec.ofNat 32 (2 ^ k - 1)).toNat = w.toNat % 2 ^ k := by
  rw [and_eq_ofNat_mod w k hk, BitVec.toNat_ofNat]
  have h1 : (2 : Nat) ^ k ≤ 2 ^ 32 := Nat.pow_le_pow_right (by omega) hk
  exact Nat.mod_eq_of_lt (Nat.lt_of_lt_of_le (Nat.mod_lt _ (Nat.two_pow_pos k)) h1)

@[simp] theorem and_allOnes (w : Word) : w &&& 0xFFFFFFFF = w := by
  apply BitVec.eq_of_toNat_eq
  exact (toNat_mask w 32 (by omega)).trans (Nat.mod_eq_of_lt w.isLt)

theorem toNat_and_status (w : Word) : (w &&& 0x7).toNat = w.toNat % 2 ^ 3 := toNat_mask w 3 (by omega)
theorem toNat_and_len (w : Word) : (w &&& 0xFFFF).toNat = w.toNat % 2 ^ 16 := toNat_mask w 16 (by omega)
theorem toNat_and_value (w : Word) : (w &&& 0x7FFFFFFF).toNat = w.toNat % 2 ^ 31 := toNat_mask w 31 (by omega)
theorem toNat_and_offset (w : Word) : (w &&& 0xF).toNat = w.toNat % 2 ^ 4 := toNat_mask w 4 (by omega)
theorem toNat_and_code (w : Word) : (w &&& 0x07FFFFFF).toNat = w.toNat % 2 ^ 27 := toNat_mask w 27 (by omega)

/-- A masked number that fits the mask is the number. -/
theorem ofNat_and_mask (n k : Nat) (hk : k ≤ 32) (h : n < 2 ^ k) :
    BitVec.ofNat 32 n &&& BitVec.ofNat 32 (2 ^ k - 1) = BitVec.ofNat 32 n := by
  have h1 : (2 : Nat) ^ k ≤ 2 ^ 32 := Nat.pow_le_pow_right (by omega) hk
  rw [and_eq_ofNat_mod _ k hk, BitVec.toNat_ofNat, Nat.mod_eq_of_lt (a := n) (by omega), Nat.mod_eq_of_lt h]

/-- Masking a register twice is masking it once. -/
theorem and_and_self (w m : Word) : w &&& m &&& m = w &&& m := by
  rw [BitVec.and_assoc, BitVec.and_self]

/-- The number an ERRINFO word is, from its fields (R35). -/
theorem errinfo_toNat (i : BitVec 16) (c : Byte) (k : BitVec 4) :
    ((i ++ c ++ (0 : BitVec 4) ++ k).cast (by decide) : Word).toNat = k.toNat + c.toNat * 2 ^ 8 + i.toNat * 2 ^ 16 := by
  rw [BitVec.toNat_cast, BitVec.toNat_append, ← Nat.shiftLeft_add_eq_or_of_lt k.isLt, BitVec.toNat_append,
    ← Nat.shiftLeft_add_eq_or_of_lt (0 : BitVec 4).isLt, BitVec.toNat_append,
    ← Nat.shiftLeft_add_eq_or_of_lt c.isLt]
  simp only [Nat.shiftLeft_eq, show (0 : BitVec 4).toNat = 0 from rfl]
  omega

theorem pendingWord_eq (s : State) : pendingWord s = s.cmd := and_allOnes s.cmd

theorem inputLength_eq (s : State) : inputLength s = inlenOf s := by
  simp only [inputLength, inlenOf, State.readReg, State.stored, Reg.mask, BitVec.extractLsb'_toNat, toNat_and_len]
  omega

theorem foldOperand_eq (s : State) : foldOperand s = s.value.toNat % 2 ^ 31 := by
  simp only [foldOperand, State.readReg, State.stored, Reg.mask, BitVec.extractLsb'_toNat, toNat_and_value]
  omega

theorem counter_toNat (s : State) : (counter s).toNat = s.ctrHi.toNat * 2 ^ 32 + s.ctrLo.toNat := by
  simp only [counter, State.readReg, State.stored, Reg.mask, and_allOnes, BitVec.toNat_cast]
  rw [BitVec.toNat_append, ← Nat.shiftLeft_add_eq_or_of_lt s.ctrLo.isLt, Nat.shiftLeft_eq]

theorem inputTooLong_iff (s : State) : inputTooLong s = true ↔ s.cfg.ibufSize < inlenOf s := by
  simp [inputTooLong, inputLength_eq]

theorem validDigits_iff (d : Nat) : validDigits d = true ↔ d ∈ [6, 7, 8] := by
  simp [validDigits, or_assoc]

theorem inlenOf_lt (s : State) : inlenOf s < 2 ^ 16 := Nat.mod_lt _ (by decide)

theorem digestLen_ge (a : Alg) : 20 ≤ digestLen a := by cases a <;> decide

/-- The input bytes of a state whose IBUF holds them. -/
theorem inputBytes_of_holds {s : State} {n : Nat} {b : Nat → Byte} (h : ibufHolds s n b) :
    inputBytes s n = some ((List.range n).map b) := by
  refine Memory.readBytes_eq_some.2 ⟨by simp, fun j hj => ?_⟩
  rw [Nat.zero_add, h j hj]
  simp [hj]

/-- Input bytes that could be read are those IBUF holds. -/
theorem inputBytes_eq_some {s : State} {n : Nat} {bs : List Byte} :
    inputBytes s n = some bs ↔ bs.length = n ∧ ∀ j, j < n → s.ibuf.read j = bs[j]? := by
  simp [inputBytes, Memory.readBytes_eq_some]

theorem inputBytes_eq_none {s : State} {n : Nat} :
    inputBytes s n = none ↔ ∃ j, j < n ∧ s.ibuf.read j = none := by
  simp [inputBytes, Memory.readBytes_eq_none]

/-- The parameter constraints of R8, one by one. -/
theorem Config.wf_iff (c : Config) : c.wf = true ↔
    64 ≤ c.ibufSize ∧ c.ibufSize ≤ 2560 ∧ 8 * ((c.ibufSize + 4) / 5) ≤ c.obufSize ∧ c.obufSize ≤ 4096 := by
  simp [Config.wf, and_assoc]

/-- The checks of B32DEC on INLEN, one case each. -/
theorem textError_cases (s : State) :
    (s.cfg.ibufSize < inlenOf s ∧ textError s = some .lengthError) ∨
    (inlenOf s ≤ s.cfg.ibufSize ∧ inlenOf s % 8 ≠ 0 ∧ textError s = some .invalidLength) ∨
    (inlenOf s ≤ s.cfg.ibufSize ∧ inlenOf s % 8 = 0 ∧ textError s = none) := by
  by_cases h : s.cfg.ibufSize < inlenOf s
  · exact .inl ⟨h, by simp [textError, (inputTooLong_iff s).2 h]⟩
  · have h' : inputTooLong s = false := Bool.eq_false_iff.2 (mt (inputTooLong_iff s).1 h)
    by_cases h8 : inlenOf s % 8 = 0
    · exact .inr (.inr ⟨by omega, h8, by simp [textError, h', inputLength_eq, h8]⟩)
    · exact .inr (.inl ⟨by omega, h8, by simp [textError, h', inputLength_eq, h8]⟩)

/-- The checks of HOTPTRUNC and HOTPCODE on INLEN, one case each. -/
theorem digestError_cases (a : Alg) (s : State) :
    (s.cfg.ibufSize < inlenOf s ∧ digestError a s = some .lengthError) ∨
    (inlenOf s ≤ s.cfg.ibufSize ∧ inlenOf s ≠ digestLen a ∧ digestError a s = some .invalidLength) ∨
    (inlenOf s ≤ s.cfg.ibufSize ∧ inlenOf s = digestLen a ∧ digestError a s = none) := by
  by_cases h : s.cfg.ibufSize < inlenOf s
  · exact .inl ⟨h, by simp [digestError, (inputTooLong_iff s).2 h]⟩
  · have h' : inputTooLong s = false := Bool.eq_false_iff.2 (mt (inputTooLong_iff s).1 h)
    by_cases hl : inlenOf s = digestLen a
    · exact .inr (.inr ⟨by omega, hl, by simp [digestError, h', inputLength_eq, hl]⟩)
    · exact .inr (.inl ⟨by omega, hl, by simp [digestError, h', inputLength_eq, hl]⟩)

end Sys2Proof.Machine
end

