-- ==== Sys2Proof/Laws/Bus.lean ====
section
/-! SUPPORT. The host's moves: what each kind of access gives, and everything a move can do to the block. -/

namespace Sys2Proof.Machine

theorem windowOffset_of_offset (cfg : Config) {off : Nat} (h : off < 0x4000) :
    windowOffset cfg (cfg.base + off) = some off := by
  simp [windowOffset, windowSize, h]

theorem windowOffset_eq_none_iff (cfg : Config) (addr : Nat) :
    windowOffset cfg addr = none ↔ addr < cfg.base ∨ cfg.base + 0x4000 ≤ addr := by
  unfold windowOffset windowSize
  split <;> simp <;> omega

theorem windowOffset_eq_some {cfg : Config} {addr off : Nat} (h : windowOffset cfg addr = some off) :
    addr = cfg.base + off ∧ off < 0x4000 := by
  unfold windowOffset windowSize at h
  split at h
  · simp only [Option.some.injEq] at h; omega
  · cases h

theorem regAt_eq_some {off : Nat} {r : Reg} : regAt off = some r ↔ off = r.offsetInWindow := by
  constructor
  · intro h
    unfold regAt at h
    split at h <;> cases h <;> rfl
  · rintro rfl
    cases r <;> rfl

theorem offsetInWindow_lt (r : Reg) : r.offsetInWindow < 0x28 := by cases r <;> decide

theorem regAt_eq_none_iff {off : Nat} (h : off < 0x28) : regAt off = none ↔ off % 4 ≠ 0 := by
  interval_cases off <;> decide

/-- R73's list is what the address decoding refuses. -/
theorem busTarget_eq_none_iff (cfg : Config) (isWrite : Bool) (off width : Nat) (hc : cfg.wf = true)
    (ho : off < 0x4000) : busTarget cfg isWrite off width = none ↔ busErrorAccess cfg isWrite off width := by
  obtain ⟨h1, h2, h3, h4⟩ := (Config.wf_iff cfg).1 hc
  unfold busTarget busErrorAccess reservedOffset ibufWindow obufWindow
  by_cases hr : off < 0x28
  · have hreg : (regAt off).map Target.reg = none ↔ off % 4 ≠ 0 := by
      rw [Option.map_eq_none_iff, regAt_eq_none_iff hr]
    by_cases hw : width = 32
    · simp only [hr, if_true, hw, hreg]
      cases isWrite <;> simp <;> omega
    · simp only [hr, if_true, hw, if_false, true_iff]
      exact .inr (.inl ⟨trivial, .inl hw⟩)
  · simp only [hr, if_false]
    by_cases hi : 0x1000 ≤ off ∧ off < 0x1000 + cfg.ibufSize
    · by_cases hw : width = 8
      · cases isWrite <;> simp [hi, hw] <;> omega
      · simp only [hi, and_self, if_true, hw, if_false, true_iff]
        exact .inr (.inr (.inl ⟨trivial, trivial, hw⟩))
    · simp only [hi, if_false]
      by_cases hob : 0x2000 ≤ off ∧ off < 0x2000 + cfg.obufSize
      · by_cases hw : width = 8
        · cases isWrite <;> simp [hob, hw]
          omega
        · simp [hob, hw]
      · simp only [hob, if_false, true_iff]
        exact .inl (by omega)

/-- What an access reaches, by its address: the register at its offset, a byte of IBUF,
    or a byte of OBUF (never a write). -/
theorem busTarget_eq_some {cfg : Config} {isWrite : Bool} {off width : Nat} {t : Target}
    (h : busTarget cfg isWrite off width = some t) :
    (∃ r, t = .reg r ∧ width = 32 ∧ off = r.offsetInWindow) ∨
    (∃ i, t = .ibuf i ∧ width = 8 ∧ off = 0x1000 + i ∧ i < cfg.ibufSize) ∨
    (∃ i, t = .obuf i ∧ width = 8 ∧ isWrite = false ∧ off = 0x2000 + i ∧ i < cfg.obufSize) := by
  unfold busTarget ibufWindow obufWindow at h
  split at h
  · split at h
    · obtain ⟨r, hr, rfl⟩ := Option.map_eq_some_iff.1 h
      exact .inl ⟨r, rfl, ‹_›, regAt_eq_some.1 hr⟩
    · cases h
  · split at h
    · split at h
      · cases h
        exact .inr (.inl ⟨_, rfl, ‹_›, by omega, by omega⟩)
      · cases h
    · split at h
      · split at h
        · cases h
          rename_i hb
          exact .inr (.inr ⟨_, rfl, hb.1, hb.2, by omega, by omega⟩)
        · cases h
      · cases h

theorem busTarget_reg (cfg : Config) (isWrite : Bool) (r : Reg) :
    busTarget cfg isWrite r.offsetInWindow 32 = some (.reg r) := by
  simp [busTarget, offsetInWindow_lt, regAt_eq_some.2 rfl]

theorem busTarget_ibuf (cfg : Config) (isWrite : Bool) {i : Nat} (h : i < cfg.ibufSize) :
    busTarget cfg isWrite (0x1000 + i) 8 = some (.ibuf i) := by
  have h1 : ¬ 0x1000 + i < 0x28 := by omega
  simp [busTarget, ibufWindow, h1, h]

theorem busTarget_obuf (cfg : Config) (hc : cfg.wf = true) {i : Nat} (h : i < cfg.obufSize) :
    busTarget cfg false (0x2000 + i) 8 = some (.obuf i) := by
  obtain ⟨_, h2, _, _⟩ := (Config.wf_iff cfg).1 hc
  have h1 : ¬ 0x2000 + i < 0x28 := by omega
  have h3 : ¬ 0x2000 + i < 0x1000 + cfg.ibufSize := by omega
  simp [busTarget, ibufWindow, obufWindow, h1, h3, h]

/-- A read of a register, while idle. -/
theorem hostMove_read_reg (s : State) (r : Reg) (hb : s.busy = false) :
    hostMove s (.read (s.cfg.base + r.offsetInWindow) 32) = s.respond (.word (s.readReg r)) := by
  have ho := offsetInWindow_lt r
  simp only [hostMove, hostRead, windowOffset_of_offset s.cfg (show r.offsetInWindow < 0x4000 by omega),
    busTarget_reg]
  cases r <;> simp [hostReadTarget, hb]

/-- A write of a register, while idle. -/
theorem hostMove_write_reg (s : State) (r : Reg) (w : Word) (hb : s.busy = false) :
    hostMove s (.write (s.cfg.base + r.offsetInWindow) 32 w) = (hostWriteReg s r w).respond .done := by
  have ho := offsetInWindow_lt r
  simp only [hostMove, hostWrite, windowOffset_of_offset s.cfg (show r.offsetInWindow < 0x4000 by omega),
    busTarget_reg, hostWriteTarget, hb, Bool.false_eq_true, if_false]

/-- Everything a read can do: answer, and perhaps set a mark. -/
theorem hostRead_cases (s : State) (addr width : Nat) :
    hostRead s addr width = hostNoMeaning s ∨ hostRead s addr width = hostBusError s ∨
    (s.busy = true ∧ hostRead s addr width = hostHazard s) ∨
    (∃ w, hostRead s addr width = s.respond (.word w)) ∨
    (∃ b, hostRead s addr width = s.respond (.byte b)) ∨
    hostRead s addr width = (s.recordFault .unspecifiedRead).respond .unspecified := by
  have hbyte : ∀ (m : Memory) (i : Nat), (∃ b, hostReadByte m i s = s.respond (.byte b)) ∨
      hostReadByte m i s = (s.recordFault .unspecifiedRead).respond .unspecified := by
    intro m i
    unfold hostReadByte
    split
    · exact .inl ⟨_, rfl⟩
    · exact .inr rfl
  unfold hostRead
  split
  · exact .inl rfl
  · split
    · exact .inr (.inl rfl)
    · rename_i t _
      cases hb : s.busy with
      | true =>
        cases t with
        | reg r =>
          cases r with
          | status => exact .inr (.inr (.inr (.inl ⟨_, rfl⟩)))
          | _ => exact .inr (.inr (.inl ⟨rfl, by simp [hostReadTarget, hb]⟩))
        | ibuf i => exact .inr (.inr (.inl ⟨rfl, by simp [hostReadTarget, hb]⟩))
        | obuf i => exact .inr (.inr (.inl ⟨rfl, by simp [hostReadTarget, hb]⟩))
      | false =>
        cases t with
        | reg r =>
          refine .inr (.inr (.inr (.inl ⟨s.readReg r, ?_⟩)))
          cases r <;> simp [hostReadTarget, hb]
        | ibuf i =>
          have : hostReadTarget s (.ibuf i) = hostReadByte s.ibuf i s := by simp [hostReadTarget, hb]
          rw [this]
          exact .inr (.inr (.inr (.inr (hbyte s.ibuf i))))
        | obuf i =>
          have : hostReadTarget s (.obuf i) = hostReadByte s.obuf i s := by simp [hostReadTarget, hb]
          rw [this]
          exact .inr (.inr (.inr (.inr (hbyte s.obuf i))))

/-- Everything a write can do. -/
theorem hostWrite_cases (s : State) (addr width : Nat) (data : Word) :
    hostWrite s addr width data = hostNoMeaning s ∨ hostWrite s addr width data = hostBusError s ∨
    (s.busy = true ∧ hostWrite s addr width data = hostHazard s) ∨
    (s.busy = false ∧ ∃ r, addr = s.cfg.base + r.offsetInWindow ∧ width = 32 ∧
      hostWrite s addr width data = (hostWriteReg s r data).respond .done) ∨
    (s.busy = false ∧ ∃ i, i < s.cfg.ibufSize ∧ addr = s.cfg.base + (0x1000 + i) ∧ width = 8 ∧
      hostWrite s addr width data =
        ({ s with ibuf := s.ibuf.write i (data.extractLsb' 0 8) }).respond .done) := by
  unfold hostWrite
  split
  · exact .inl rfl
  · rename_i off hoff
    obtain ⟨rfl, _⟩ := windowOffset_eq_some hoff
    split
    · exact .inr (.inl rfl)
    · rename_i t ht
      cases hb : s.busy with
      | true => exact .inr (.inr (.inl ⟨rfl, by simp [hostWriteTarget, hb]⟩))
      | false =>
        rcases busTarget_eq_some ht with ⟨r, rfl, hw, ho⟩ | ⟨i, rfl, hw, ho, hi⟩ | ⟨i, rfl, hw, hf, _⟩
        · exact .inr (.inr (.inr (.inl ⟨rfl, r, by rw [ho], hw, by simp [hostWriteTarget, hb]⟩)))
        · exact .inr (.inr (.inr (.inr ⟨rfl, i, hi, by rw [ho], hw, by simp [hostWriteTarget, hb]⟩)))
        · cases hf

/-- A register write is an issue, a store into one of INLEN, CTR_LO, CTR_HI and VALUE, or nothing. -/
theorem hostWriteReg_cases (s : State) (r : Reg) (w : Word) :
    (r = .cmd ∧ hostWriteReg s r w = s.issue w) ∨
    ((r = .inlen ∨ r = .ctrLo ∨ r = .ctrHi ∨ r = .value) ∧ hostWriteReg s r w = s.writeReg r w) ∨
    hostWriteReg s r w = s := by
  cases r <;> simp [hostWriteReg, Reg.hostWritable]

/-- WAIT answers STATUS, and stays the next move exactly while a command is pending. -/
theorem hostWait_eq (s : State) : hostWait s =
    if s.busy then { s.respond (.word (s.readReg .status)) with host := .wait :: s.host }
    else s.respond (.word (s.readReg .status)) := rfl

theorem FaultSet.has_insert (f : FaultSet) (k j : FaultKind) :
    (f.insert k).has j = true ↔ f.has j = true ∨ j = k := by
  cases k <;> cases j <;> simp [FaultSet.insert, FaultSet.has]

/-- No move clears a mark, and none changes the parameters. -/
theorem hostMove_marks (s : State) (m : HostMove) :
    (∀ k, s.faults.has k = true → (hostMove s m).faults.has k = true) ∧
      (s.refusal = true → (hostMove s m).refusal = true) ∧ (hostMove s m).cfg = s.cfg := by
  have hfault : ∀ k j, s.faults.has j = true → (s.faults.insert k).has j = true := fun k j h =>
      (FaultSet.has_insert _ _ _).2 (.inl h)
  cases m with
  | reset => exact ⟨fun _ h => h, fun h => h, rfl⟩
  | wait => simp only [hostMove]; rw [hostWait_eq]; split <;> exact ⟨fun _ h => h, fun h => h, rfl⟩
  | read a w =>
    simp only [hostMove]
    rcases hostRead_cases s a w with h | h | ⟨_, h⟩ | ⟨_, h⟩ | ⟨_, h⟩ | h <;> rw [h]
    · exact ⟨fun _ h => h, fun _ => rfl, rfl⟩
    · exact ⟨fun _ h => h, fun h => h, rfl⟩
    · exact ⟨hfault _, fun h => h, rfl⟩
    · exact ⟨fun _ h => h, fun h => h, rfl⟩
    · exact ⟨fun _ h => h, fun h => h, rfl⟩
    · exact ⟨hfault _, fun h => h, rfl⟩
  | write a w d =>
    simp only [hostMove]
    rcases hostWrite_cases s a w d with h | h | ⟨_, h⟩ | ⟨_, r, _, _, h⟩ | ⟨_, _, _, _, _, h⟩ <;> rw [h]
    · exact ⟨fun _ h => h, fun _ => rfl, rfl⟩
    · exact ⟨fun _ h => h, fun h => h, rfl⟩
    · exact ⟨hfault _, fun h => h, rfl⟩
    · rcases hostWriteReg_cases s r d with ⟨_, h⟩ | ⟨hr, h⟩ | h <;> rw [h]
      · exact ⟨fun _ h => h, fun h => h, rfl⟩
      · rcases hr with rfl | rfl | rfl | rfl <;> exact ⟨fun _ h => h, fun h => h, rfl⟩
      · exact ⟨fun _ h => h, fun h => h, rfl⟩
    · exact ⟨fun _ h => h, fun h => h, rfl⟩

theorem hostWriteReg_schedule (s : State) (r : Reg) (w : Word) : (hostWriteReg s r w).schedule = s.schedule := by
  rcases hostWriteReg_cases s r w with ⟨_, h⟩ | ⟨hr, h⟩ | h <;> rw [h]
  · rfl
  · rcases hr with rfl | rfl | rfl | rfl <;> rfl

/-- No move touches the schedule. -/
theorem hostMove_schedule (s : State) (m : HostMove) : (hostMove s m).schedule = s.schedule := by
  cases m with
  | reset => rfl
  | wait => simp only [hostMove]; rw [hostWait_eq]; split <;> rfl
  | read a w =>
    simp only [hostMove]
    rcases hostRead_cases s a w with h | h | ⟨_, h⟩ | ⟨_, h⟩ | ⟨_, h⟩ | h <;> rw [h] <;> rfl
  | write a w d =>
    simp only [hostMove]
    rcases hostWrite_cases s a w d with h | h | ⟨_, h⟩ | ⟨_, r, _, _, h⟩ | ⟨_, _, _, _, _, h⟩ <;> rw [h] <;> try rfl
    exact hostWriteReg_schedule s r d

end Sys2Proof.Machine
end

