-- ==== Sys2Proof/Laws/Decode.lean ====
section
/-! SUPPORT. A command word is its four fields, and what the fields of a decoded word are. -/

namespace Sys2Proof.Machine

/-- A word is the sum of its fields. -/
theorem word_eq_fields (w : Word) : w.toNat = fieldOp w + fieldDigits w * 2^8 + fieldAlg w * 2^12 + fieldRsv w *
    2^14 := by
  have := w.isLt
  simp only [fieldOp, fieldDigits, fieldAlg, fieldRsv, BitVec.extractLsb'_toNat, Nat.shiftRight_eq_div_pow]
  omega

theorem fieldDigits_lt (w : Word) : fieldDigits w < 16 := (w.extractLsb' 8 4).isLt

theorem fieldAlg_lt (w : Word) : fieldAlg w < 4 := (w.extractLsb' 12 2).isLt

/-- The value of a word made of fields. -/
theorem cmd32_toNat (a : BitVec 2) (d : BitVec 4) (o : BitVec 8) :
    (cmd32 a d o).toNat = o.toNat + d.toNat * 2^8 + a.toNat*2^12 := by
  simp only [cmd32, BitVec.toNat_cast]
  rw [BitVec.toNat_append, ← Nat.shiftLeft_add_eq_or_of_lt o.isLt, BitVec.toNat_append,
    ← Nat.shiftLeft_add_eq_or_of_lt d.isLt, BitVec.toNat_append, ← Nat.shiftLeft_add_eq_or_of_lt a.isLt]
  simp only [Nat.shiftLeft_eq]; simp; omega

/-- The fields of a word that decodes to a command. -/
theorem decode_fields {w : Word} {i : Instr} (h : decode w = .cmd i) :
    match i with
    | .b32enc => fieldOp w = 1
    | .b32dec => fieldOp w = 2
    | .hotpmsg => fieldOp w = 3
    | .hotptrunc a => fieldOp w = 4 ∧ algOfField (fieldAlg w) = some a
    | .hotpfold d => fieldOp w = 5 ∧ fieldDigits w = d
    | .hotpcode a d => fieldOp w = 6 ∧ algOfField (fieldAlg w) = some a ∧ fieldDigits w = d := by
  unfold decode at h
  split at h
  · cases h
  split at h
  · split at h <;> cases h; assumption
  split at h
  · split at h <;> cases h; assumption
  split at h
  · split at h <;> cases h; assumption
  split at h
  · unfold decodeTrunc at h
    split at h
    · split at h <;> cases h; exact ⟨‹_›, ‹_›⟩
    · cases h
  split at h
  · split at h <;> cases h; exact ⟨‹_›, rfl⟩
  split at h
  · unfold decodeCode at h
    split at h <;> cases h
    exact ⟨‹_›, ‹_›, rfl⟩
  · cases h

end Sys2Proof.Machine
end

