-- ==== Sys2Proof/Laws/Exec.lean ====
section
/-! SUPPORT. Everything each command can do, one lemma per command: the error completions, the stop,
    and the commit, each with
the condition under which it is what happens. Later proofs cite these and unfold no meaning. -/

namespace Sys2Proof.Machine

/-- IBUF[0..n) is written with the bytes `bs`. -/
def inputIs (s : State) (n : Nat) (bs : List Byte) : Prop :=
  bs.length = n ∧ ∀ j, j < n → s.ibuf.read j = bs[j]?

/-- A byte of IBUF[0..n) is unspecified. -/
def inputMissing (s : State) (n : Nat) : Prop := ∃ j, j < n ∧ s.ibuf.read j = none

theorem inputMissing_not_inputIs {s : State} {n : Nat} {bs : List Byte} (h : inputMissing s n) :
    ¬ inputIs s n bs := by
  obtain ⟨j, hj, hn⟩ := h
  rintro ⟨hl, hr⟩
  have h1 := hr j hj
  rw [hn, List.getElem?_eq_getElem (hl ▸ hj)] at h1
  cases h1

/-- The bytes IBUF[0..n) holds are determined. -/
theorem inputIs_unique {s : State} {n : Nat} {bs cs : List Byte} (h : inputIs s n bs) (h' : inputIs s n cs) :
    bs = cs :=
  List.ext_getElem? fun j => by
    by_cases hj : j < n
    · rw [← h.2 j hj, ← h'.2 j hj]
    · rw [List.getElem?_eq_none (by have := h.1; omega), List.getElem?_eq_none (by have := h'.1; omega)]

theorem inputIs_of_holds {s : State} {n : Nat} {b : Nat → Byte} (h : ibufHolds s n b) :
    inputIs s n ((List.range n).map b) := inputBytes_eq_some.1 (inputBytes_of_holds h)

theorem execB32enc_cases (s : State) :
    (s.cfg.ibufSize < inlenOf s ∧ exec .b32enc s = .next (s.completeError .lengthError)) ∨
    (inlenOf s ≤ s.cfg.ibufSize ∧ inputMissing s (inlenOf s) ∧ exec .b32enc s = stopUnwritten s) ∨
    (inlenOf s ≤ s.cfg.ibufSize ∧ ∃ bs, inputIs s (inlenOf s) bs ∧
      exec .b32enc s = .next (s.commitOutput (base32Encode bs)).completeSuccess) := by
  by_cases h : s.cfg.ibufSize < inlenOf s
  · exact .inl ⟨h, by simp [exec, execB32enc, (inputTooLong_iff s).2 h]⟩
  · have h' : inputTooLong s = false := Bool.eq_false_iff.2 (mt (inputTooLong_iff s).1 h)
    cases hb : inputBytes s (inlenOf s) with
    | none => exact .inr (.inl ⟨by omega, inputBytes_eq_none.1 hb, by simp [exec, execB32enc, h', inputLength_eq,
        hb]⟩)
    | some bs =>
      exact .inr (.inr ⟨by omega, bs, inputBytes_eq_some.1 hb, by simp [exec, execB32enc, h', inputLength_eq, hb]⟩)

theorem execB32dec_cases (s : State) :
    (s.cfg.ibufSize < inlenOf s ∧ exec .b32dec s = .next (s.completeError .lengthError)) ∨
    (inlenOf s ≤ s.cfg.ibufSize ∧ inlenOf s % 8 ≠ 0 ∧ exec .b32dec s = .next (s.completeError .invalidLength)) ∨
    (inlenOf s ≤ s.cfg.ibufSize ∧ inlenOf s % 8 = 0 ∧ inputMissing s (inlenOf s) ∧ exec .b32dec s = stopUnwritten s) ∨
    (inlenOf s ≤ s.cfg.ibufSize ∧ inlenOf s % 8 = 0 ∧ ∃ cs, inputIs s (inlenOf s) cs ∧
      ((∃ e, firstInvalid 0 cs = some e ∧ exec .b32dec s = .next (s.completeError e)) ∨
        (firstInvalid 0 cs = none ∧ exec .b32dec s = .next (s.commitOutput (base32Decode cs)).completeSuccess))) := by
  rcases textError_cases s with ⟨h, he⟩ | ⟨h, h8, he⟩ | ⟨h, h8, he⟩
  · exact .inl ⟨h, by simp [exec, execB32dec, he]⟩
  · exact .inr (.inl ⟨h, h8, by simp [exec, execB32dec, he]⟩)
  · cases hb : inputBytes s (inlenOf s) with
    | none =>
      exact .inr (.inr (.inl ⟨h, h8, inputBytes_eq_none.1 hb, by simp [exec, execB32dec, he, inputLength_eq, hb]⟩))
    | some cs =>
      refine .inr (.inr (.inr ⟨h, h8, cs, inputBytes_eq_some.1 hb, ?_⟩))
      cases hf : firstInvalid 0 cs with
      | none => exact .inr ⟨rfl, by simp [exec, execB32dec, he, inputLength_eq, hb, hf]⟩
      | some e => exact .inl ⟨e, rfl, by simp [exec, execB32dec, he, inputLength_eq, hb, hf]⟩

theorem exec_hotpmsg (s : State) :
    exec .hotpmsg s = .next (s.commitOutput (counterMessage (counter s))).completeSuccess := rfl

theorem execHotptrunc_cases (a : Alg) (s : State) :
    (s.cfg.ibufSize < inlenOf s ∧ exec (.hotptrunc a) s = .next (s.completeError .lengthError)) ∨
    (inlenOf s ≤ s.cfg.ibufSize ∧ inlenOf s ≠ digestLen a ∧
      exec (.hotptrunc a) s = .next (s.completeError .invalidLength)) ∨
    (inlenOf s ≤ s.cfg.ibufSize ∧ inlenOf s = digestLen a ∧ inputMissing s (digestLen a) ∧
      exec (.hotptrunc a) s = stopUnwritten s) ∨
    (inlenOf s ≤ s.cfg.ibufSize ∧ inlenOf s = digestLen a ∧ ∃ h, inputIs s (digestLen a) h ∧
      exec (.hotptrunc a) s = .next (s.commitTrunc (truncOffset h) (truncMasked h)).completeSuccess) := by
  rcases digestError_cases a s with ⟨h, he⟩ | ⟨h, hl, he⟩ | ⟨h, hl, he⟩
  · exact .inl ⟨h, by simp [exec, execHotptrunc, he]⟩
  · exact .inr (.inl ⟨h, hl, by simp [exec, execHotptrunc, he]⟩)
  · cases hb : inputBytes s (digestLen a) with
    | none => exact .inr (.inr (.inl ⟨h, hl, inputBytes_eq_none.1 hb, by simp [exec, execHotptrunc, he, hb]⟩))
    | some d => exact .inr (.inr (.inr ⟨h, hl, d, inputBytes_eq_some.1 hb, by simp [exec, execHotptrunc, he, hb]⟩))

theorem execHotpfold_cases (d : Nat) (s : State) :
    (d ∉ [6, 7, 8] ∧ exec (.hotpfold d) s = .next (s.completeError .invalidDigits)) ∨
    (d ∈ [6, 7, 8] ∧ exec (.hotpfold d) s = .next ((s.commitCode (foldCode (s.value.toNat % 2 ^ 31) d)).commitOutput
      (renderCode (foldCode (s.value.toNat % 2 ^ 31) d) d)).completeSuccess) := by
  by_cases h : validDigits d = true
  · exact .inr ⟨(validDigits_iff d).1 h, by simp [exec, execHotpfold, h, foldOperand_eq]⟩
  · exact .inl ⟨mt (validDigits_iff d).2 h, by simp [exec, execHotpfold, h]⟩

theorem execHotpcode_cases (a : Alg) (d : Nat) (s : State) :
    (d ∉ [6, 7, 8] ∧ exec (.hotpcode a d) s = .next (s.completeError .invalidDigits)) ∨
    (d ∈ [6, 7, 8] ∧ s.cfg.ibufSize < inlenOf s ∧ exec (.hotpcode a d) s = .next (s.completeError .lengthError)) ∨
    (d ∈ [6, 7, 8] ∧ inlenOf s ≤ s.cfg.ibufSize ∧ inlenOf s ≠ digestLen a ∧
      exec (.hotpcode a d) s = .next (s.completeError .invalidLength)) ∨
    (d ∈ [6, 7, 8] ∧ inlenOf s ≤ s.cfg.ibufSize ∧ inlenOf s = digestLen a ∧ inputMissing s (digestLen a) ∧
      exec (.hotpcode a d) s = stopUnwritten s) ∨
    (d ∈ [6, 7, 8] ∧ inlenOf s ≤ s.cfg.ibufSize ∧ inlenOf s = digestLen a ∧ ∃ h, inputIs s (digestLen a) h ∧
      exec (.hotpcode a d) s = .next (((s.commitTrunc (truncOffset h) (truncMasked h)).commitCode
        (foldCode (truncMasked h).toNat d)).commitOutput
          (renderCode (foldCode (truncMasked h).toNat d) d)).completeSuccess) := by
  by_cases hd : validDigits d = true
  · have hd' := (validDigits_iff d).1 hd
    rcases digestError_cases a s with ⟨h, he⟩ | ⟨h, hl, he⟩ | ⟨h, hl, he⟩
    · exact .inr (.inl ⟨hd', h, by simp [exec, execHotpcode, hd, he]⟩)
    · exact .inr (.inr (.inl ⟨hd', h, hl, by simp [exec, execHotpcode, hd, he]⟩))
    · cases hb : inputBytes s (digestLen a) with
      | none =>
        exact .inr (.inr (.inr (.inl ⟨hd', h, hl, inputBytes_eq_none.1 hb, by simp [exec, execHotpcode, hd, he,
            hb]⟩)))
      | some x =>
        exact .inr (.inr (.inr (.inr
          ⟨hd', h, hl, x, inputBytes_eq_some.1 hb, by simp [exec, execHotpcode, hd, he, hb]⟩)))
  · exact .inl ⟨mt (validDigits_iff d).2 hd, by simp [exec, execHotpcode, hd]⟩

/-- A command ends in an error, in the stop, or in success; success and error are told apart by STATUS, and success
writes no ERRINFO. -/
theorem exec_outcome (i : Instr) (s : State) :
    (∃ e, exec i s = .next (s.completeError e)) ∨ exec i s = stopUnwritten s ∨
    ∃ t, exec i s = .next t ∧ t.status = statusSuccess ∧ t.errinfo = s.errinfo := by
  cases i with
  | b32enc =>
    rcases execB32enc_cases s with ⟨_, h⟩ | ⟨_, _, h⟩ | ⟨_, _, _, h⟩
    · exact .inl ⟨_, h⟩
    · exact .inr (.inl h)
    · exact .inr (.inr ⟨_, h, rfl, rfl⟩)
  | b32dec =>
    rcases execB32dec_cases s with ⟨_, h⟩ | ⟨_, _, h⟩ | ⟨_, _, _, h⟩ | ⟨_, _, _, _, ⟨_, _, h⟩ | ⟨_, h⟩⟩
    · exact .inl ⟨_, h⟩
    · exact .inl ⟨_, h⟩
    · exact .inr (.inl h)
    · exact .inl ⟨_, h⟩
    · exact .inr (.inr ⟨_, h, rfl, rfl⟩)
  | hotpmsg => exact .inr (.inr ⟨_, exec_hotpmsg s, rfl, rfl⟩)
  | hotptrunc a =>
    rcases execHotptrunc_cases a s with ⟨_, h⟩ | ⟨_, _, h⟩ | ⟨_, _, _, h⟩ | ⟨_, _, _, _, h⟩
    · exact .inl ⟨_, h⟩
    · exact .inl ⟨_, h⟩
    · exact .inr (.inl h)
    · exact .inr (.inr ⟨_, h, rfl, rfl⟩)
  | hotpfold d =>
    rcases execHotpfold_cases d s with ⟨_, h⟩ | ⟨_, h⟩
    · exact .inl ⟨_, h⟩
    · exact .inr (.inr ⟨_, h, rfl, rfl⟩)
  | hotpcode a d =>
    rcases execHotpcode_cases a d s with ⟨_, h⟩ | ⟨_, _, h⟩ | ⟨_, _, _, h⟩ | ⟨_, _, _, _, h⟩ | ⟨_, _, _, _, _, h⟩
    · exact .inl ⟨_, h⟩
    · exact .inl ⟨_, h⟩
    · exact .inl ⟨_, h⟩
    · exact .inr (.inl h)
    · exact .inr (.inr ⟨_, h, rfl, rfl⟩)

/-- What no command writes. -/
theorem exec_frame {i : Instr} {s t : State} (h : exec i s = .next t) :
    t.cfg = s.cfg ∧ t.cmd = s.cmd ∧ t.ibuf = s.ibuf ∧ t.faults = s.faults ∧ t.refusal = s.refusal ∧
      t.host = s.host ∧ t.responses = s.responses ∧ t.schedule = s.schedule := by
  cases i with
  | b32enc =>
    rcases execB32enc_cases s with ⟨_, h'⟩ | ⟨_, _, h'⟩ | ⟨_, _, _, h'⟩ <;> rw [h'] at h <;> cases h <;> simp
  | b32dec =>
    rcases execB32dec_cases s with ⟨_, h'⟩ | ⟨_, _, h'⟩ | ⟨_, _, _, h'⟩ | ⟨_, _, _, _, ⟨_, _, h'⟩
        | ⟨_, h'⟩⟩ <;> rw [h'] at h <;> cases h <;> simp
  | hotpmsg => cases h; simp
  | hotptrunc a =>
    rcases execHotptrunc_cases a s with ⟨_, h'⟩ | ⟨_, _, h'⟩ | ⟨_, _, _, h'⟩
        | ⟨_, _, _, _, h'⟩ <;> rw [h'] at h <;> cases h <;> simp
  | hotpfold d => rcases execHotpfold_cases d s with ⟨_, h'⟩ | ⟨_, h'⟩ <;> rw [h'] at h <;> cases h <;> simp
  | hotpcode a d =>
    rcases execHotpcode_cases a d s with ⟨_, h'⟩ | ⟨_, _, h'⟩ | ⟨_, _, _, h'⟩ | ⟨_, _, _, _, h'⟩
        | ⟨_, _, _, _, _, h'⟩ <;> rw [h'] at h <;> cases h <;> simp

end Sys2Proof.Machine
end

