-- ==== Sys2Proof/Laws/Hotp.lean ====
section
/-! SUPPORT. Truncation and folding in the words of R172 to R177: offsets, masked values, digits, ranges. -/

namespace Sys2Proof.Machine

theorem truncOffset_eq (h : List Byte) : truncOffset h = (h.getD (h.length - 1) 0).toNat % 16 := by
  simp [truncOffset, BitVec.extractLsb'_toNat]

theorem truncOffset_le (h : List Byte) : truncOffset h ≤ 15 := by
  rw [truncOffset_eq]; omega

theorem append_bytes_toNat (a b c d : Byte) : ((a ++ b ++ c ++ d).cast (by decide) : Word).toNat =
    a.toNat * 2 ^ 24 + b.toNat * 2 ^ 16 + c.toNat * 2 ^ 8 + d.toNat := by
  rw [BitVec.toNat_cast, BitVec.toNat_append, ← Nat.shiftLeft_add_eq_or_of_lt d.isLt, BitVec.toNat_append,
    ← Nat.shiftLeft_add_eq_or_of_lt c.isLt, BitVec.toNat_append, ← Nat.shiftLeft_add_eq_or_of_lt b.isLt]
  simp only [Nat.shiftLeft_eq]
  omega

theorem truncMasked_toNat (h : List Byte) : (truncMasked h).toNat =
    ((h.getD (truncOffset h) 0).toNat * 2 ^ 24 + (h.getD (truncOffset h + 1) 0).toNat * 2 ^ 16 +
      (h.getD (truncOffset h + 2) 0).toNat * 2 ^ 8 + (h.getD (truncOffset h + 3) 0).toNat) % 2 ^ 31 := by
  rw [truncMasked, toNat_and_value, truncWindow, append_bytes_toNat]

theorem truncMasked_lt (h : List Byte) : (truncMasked h).toNat < 2 ^ 31 := by
  rw [truncMasked_toNat]; exact Nat.mod_lt _ (by decide)

theorem getD_of_fn (L : Nat) (h : Nat → Byte) {i : Nat} (hi : i < L) : ((List.range L).map h).getD i 0 = h i := by
  simp [List.getD_eq_getElem?_getD, hi]

/-- The offset of a digest given byte by byte. -/
theorem truncOffset_of_fn {L : Nat} (hL : 20 ≤ L) (h : Nat → Byte) :
    truncOffset ((List.range L).map h) = digestOffset L h := by
  rw [truncOffset_eq, List.length_map, List.length_range, getD_of_fn L h (by omega), digestOffset]

/-- The masked value of a digest given byte by byte; the window lies inside the digest (R172). -/
theorem truncMasked_of_fn {L : Nat} (hL : 20 ≤ L) (h : Nat → Byte) :
    truncMasked ((List.range L).map h) = BitVec.ofNat 32 (digestMasked L h) := by
  have ho : digestOffset L h ≤ 15 := by unfold digestOffset; omega
  apply BitVec.eq_of_toNat_eq
  rw [truncMasked_toNat, truncOffset_of_fn hL, getD_of_fn L h (by omega), getD_of_fn L h (by omega),
    getD_of_fn L h (by omega), getD_of_fn L h (by omega), BitVec.toNat_ofNat]
  unfold digestMasked
  omega

theorem digestMasked_lt (L : Nat) (h : Nat → Byte) : digestMasked L h < 2 ^ 31 := Nat.mod_lt _ (by decide)

/-- The offset and value registers hold the truncation unmasked by their widths. -/
theorem ofNat_offset_mask (h : List Byte) : BitVec.ofNat 32 (truncOffset h) &&& 0xF = BitVec.ofNat 32 (truncOffset h) :=
  ofNat_and_mask _ 4 (by omega) (by have := truncOffset_le h; omega)

theorem truncMasked_mask (h : List Byte) : truncMasked h &&& 0x7FFFFFFF = truncMasked h := and_and_self _ _

theorem foldCode_lt (v : Nat) {d : Nat} (hd : d ∈ [6, 7, 8]) : foldCode v d < 10 ^ 8 := by
  have h1 : foldCode v d < 10 ^ d := Nat.mod_lt _ (Nat.pow_pos (by omega))
  have h2 : (10 : Nat) ^ d ≤ 10 ^ 8 := Nat.pow_le_pow_right (by omega) (by simp at hd; omega)
  omega

/-- CODE holds the folded code unmasked by its width (R41). -/
theorem ofNat_code_mask (v : Nat) {d : Nat} (hd : d ∈ [6, 7, 8]) :
    BitVec.ofNat 32 (foldCode v d) &&& 0x07FFFFFF = BitVec.ofNat 32 (foldCode v d) :=
  ofNat_and_mask _ 27 (by omega) (by have := foldCode_lt v hd; omega)

@[simp] theorem length_renderCode (code d : Nat) : (renderCode code d).length = d := by simp [renderCode]

theorem getElem?_renderCode (code d : Nat) {i : Nat} (hi : i < d) :
    (renderCode code d)[i]? = some (codeDigit code d i) := by
  simp [renderCode, hi, codeDigit]

@[simp] theorem length_counterMessage (c : BitVec 64) : (counterMessage c).length = 8 := by simp [counterMessage]

theorem getElem?_counterMessage (c : BitVec 64) {i : Nat} (hi : i < 8) :
    (counterMessage c)[i]? = some (BitVec.ofNat 8 (c.toNat / 2 ^ (56 - 8 * i))) := by
  have h : c.extractLsb' (56 - 8 * i) 8 = BitVec.ofNat 8 (c.toNat / 2 ^ (56 - 8 * i)) := by
    apply BitVec.eq_of_toNat_eq
    simp [BitVec.extractLsb'_toNat, Nat.shiftRight_eq_div_pow]
  simp [counterMessage, hi, h]

/-- The decimal digits of a number below 10^d add up to it. -/
theorem sum_digits (d code : Nat) (h : code < 10 ^ d) :
    ((List.range d).map fun j => code / 10 ^ (d - 1 - j) % 10 * 10 ^ (d - 1 - j)).sum = code := by
  induction d generalizing code with
  | zero => simp at h; simp [h]
  | succ d ih =>
    rw [List.range_succ, List.map_append, List.sum_append]
    have hrest : ((List.range d).map fun j => code / 10 ^ (d + 1 - 1 - j) % 10 * 10 ^ (d + 1 - 1 - j)) =
        (List.range d).map fun j => 10 * (code / 10 / 10 ^ (d - 1 - j) % 10 * 10 ^ (d - 1 - j)) := by
      refine List.map_congr_left fun j hj => ?_
      have hj' := List.mem_range.1 hj
      have he : d + 1 - 1 - j = (d - 1 - j) + 1 := by omega
      rw [he, Nat.pow_succ, Nat.mul_comm (10 ^ (d - 1 - j)) 10, ← Nat.div_div_eq_div_mul]
      ring
    rw [hrest, List.sum_map_mul_left, ih (code / 10) (by rw [Nat.pow_succ] at h; omega)]
    simp
    omega

end Sys2Proof.Machine
end

