-- ==== Sys2Proof/Laws/Step.lean ====
section
/-! SUPPORT. Everything a step can do: the engine's completion, or the host's next move. -/

namespace Sys2Proof.Machine

theorem takeTurn_eq (s : State) : takeTurn s = afterTurn s := by
  unfold takeTurn afterTurn
  split <;> rfl

/-- Which step comes next is decided: the engine's or the host's, never both. -/
theorem engineNext_or_hostNext (s : State) : (engineNext s ∧ ¬ hostNext s) ∨ (hostNext s ∧ ¬ engineNext s) := by
  unfold engineNext hostNext
  cases s.busy <;> by_cases h : s.schedule.head? = some .host <;> simp [h]

theorem engineTurn_iff (s : State) : engineTurn s = true ↔ engineNext s := by
  unfold engineTurn engineNext
  simp

theorem step_of_engineNext {s : State} (h : engineNext s) : step s = engineStep (afterTurn s) := by
  rw [step, if_pos ((engineTurn_iff s).2 h), takeTurn_eq]

theorem step_of_hostNext {s : State} (h : hostNext s) : step s = .next (hostTurn (afterTurn s)) := by
  have hn : ¬ engineTurn s = true := fun he => by
    rcases engineNext_or_hostNext s with ⟨_, h'⟩ | ⟨_, h'⟩
    · exact h' h
    · exact h' ((engineTurn_iff s).1 he)
  rw [step, if_neg hn, takeTurn_eq]

@[simp] theorem afterTurn_cfg (s : State) : (afterTurn s).cfg = s.cfg := rfl
@[simp] theorem afterTurn_cmd (s : State) : (afterTurn s).cmd = s.cmd := rfl
@[simp] theorem afterTurn_status (s : State) : (afterTurn s).status = s.status := rfl
@[simp] theorem afterTurn_errinfo (s : State) : (afterTurn s).errinfo = s.errinfo := rfl
@[simp] theorem afterTurn_inlen (s : State) : (afterTurn s).inlen = s.inlen := rfl
@[simp] theorem afterTurn_outlen (s : State) : (afterTurn s).outlen = s.outlen := rfl
@[simp] theorem afterTurn_ctrLo (s : State) : (afterTurn s).ctrLo = s.ctrLo := rfl
@[simp] theorem afterTurn_ctrHi (s : State) : (afterTurn s).ctrHi = s.ctrHi := rfl
@[simp] theorem afterTurn_value (s : State) : (afterTurn s).value = s.value := rfl
@[simp] theorem afterTurn_offset (s : State) : (afterTurn s).offset = s.offset := rfl
@[simp] theorem afterTurn_code (s : State) : (afterTurn s).code = s.code := rfl
@[simp] theorem afterTurn_ibuf (s : State) : (afterTurn s).ibuf = s.ibuf := rfl
@[simp] theorem afterTurn_obuf (s : State) : (afterTurn s).obuf = s.obuf := rfl
@[simp] theorem afterTurn_faults (s : State) : (afterTurn s).faults = s.faults := rfl
@[simp] theorem afterTurn_refusal (s : State) : (afterTurn s).refusal = s.refusal := rfl
@[simp] theorem afterTurn_host (s : State) : (afterTurn s).host = s.host := rfl
@[simp] theorem afterTurn_responses (s : State) : (afterTurn s).responses = s.responses := rfl
@[simp] theorem afterTurn_busy (s : State) : (afterTurn s).busy = s.busy := rfl

/-- Completion: IllegalCommand, or the decoded command's rule. -/
theorem engineStep_cases (s : State) :
    (decode s.cmd = .illegal ∧ engineStep s = .next (s.completeError .illegalCommand)) ∨
    ∃ i, decode s.cmd = .cmd i ∧ engineStep s = exec i s := by
  unfold engineStep
  rw [pendingWord_eq]
  cases h : decode s.cmd with
  | illegal => exact .inl ⟨rfl, rfl⟩
  | cmd i => exact .inr ⟨i, rfl, rfl⟩

/-- Completion ends in an error, in the stop, or in success. -/
theorem engineStep_outcome (s : State) :
    (∃ e, engineStep s = .next (s.completeError e)) ∨ engineStep s = stopUnwritten s ∨
    ∃ t, engineStep s = .next t ∧ t.status = statusSuccess ∧ t.errinfo = s.errinfo := by
  rcases engineStep_cases s with ⟨_, h⟩ | ⟨i, _, h⟩
  · exact .inl ⟨_, h⟩
  · rw [h]; exact exec_outcome i s

/-- After the engine's step nothing is pending. -/
theorem engineStep_not_busy {s t : State} (h : engineStep s = .next t) : t.busy = false := by
  rcases engineStep_outcome s with ⟨e, he⟩ | he | ⟨u, he, hu, _⟩
  · rw [he] at h; cases h; simp [State.busy, statusError]
  · rw [he] at h; cases h
  · rw [he] at h; cases h; simp [State.busy, hu, statusSuccess]

/-- Everything a host's turn can do to the state `s` it finds. -/
theorem hostTurn_cases (s : State) :
    (s.host = [] ∧ hostTurn s = s) ∨
    ∃ m rest, s.host = m :: rest ∧ hostTurn s = hostMove { s with host := rest } m := by
  unfold hostTurn
  cases h : s.host with
  | nil => exact .inl ⟨rfl, rfl⟩
  | cons m rest => exact .inr ⟨m, rest, rfl, rfl⟩

/-- A run of the machine, one step at a time. -/
theorem run_succ (M : Host.Core) (k : Nat) (s t : M.State) (h : M.step s = .next t) : M.run (k + 1) s = M.run k t := by
  simp only [Host.Core.run, h]

theorem run_fault (M : Host.Core) (k : Nat) (s : M.State) (f : M.Fault) (h : M.step s = .fault f) :
    M.run (k + 1) s = .fault f := by
  simp only [Host.Core.run, h]

/-- `run_succ` for the core, in the model's own names. -/
theorem core_run_succ (k : Nat) (s t : State) (h : step s = .next t) : core.run (k + 1) s = core.run k t :=
  run_succ core k s t h

theorem core_run_fault (k : Nat) (s : State) (f : Fault) (h : step s = .fault f) : core.run (k + 1) s = .fault f :=
  run_fault core k s f h

end Sys2Proof.Machine
end

