-- ==== Sys2Proof/Laws/Invariant.lean ====
section
/-! SUPPORT. Each named operation keeps the invariant of the state. -/

namespace Sys2Proof.Machine

/-- The invariant concerns the block only: parameters, registers and buffers. -/
theorem State.Inv.of_block {s t : State} (h : s.Inv) (h1 : t.cfg = s.cfg) (h2 : ∀ r,
    t.stored r = s.stored r) (h3 : t.ibuf = s.ibuf) (h4 : t.obuf = s.obuf) : t.Inv := by
  have e1 : t.status = s.status := h2 .status
  have e2 : t.errinfo = s.errinfo := h2 .errinfo
  have e3 : t.code = s.code := h2 .code
  have e4 : t.outlen = s.outlen := h2 .outlen
  constructor
  · rw [h1]; exact h.cfg_wf
  · rw [e1]; exact h.status_legal
  · intro r; rw [h2]; exact h.hardwired_zero r
  · rw [e1, e2]; exact h.ecode_iff_error
  · rw [e2]; exact h.ecode_le
  · rw [e2]; exact h.echar_zero
  · rw [e2, h1]; exact h.echar_invalid
  · rw [e3]; exact h.code_lt
  · rw [h3]; exact h.ibuf_wf
  · rw [h4]; exact h.obuf_wf
  · rw [h3, h1]; exact h.ibuf_bound
  · rw [h4, e4]; exact h.obuf_specified
  · rw [e4, h1]; exact h.outlen_le

theorem State.Inv.writeReg {s : State} (h : s.Inv) (r : Reg) (w : Word) (hr :
    r = .inlen ∨ r = .ctrLo ∨ r = .ctrHi ∨ r = .value ∨ r = .offset) : (s.writeReg r w).Inv := by
  have hz := h.hardwired_zero
  rcases hr with rfl | rfl | rfl | rfl | rfl <;>
    refine ⟨h.cfg_wf, h.status_legal, fun r => ?_, h.ecode_iff_error, h.ecode_le, h.echar_zero, h.echar_invalid,
      h.code_lt, h.ibuf_wf, h.obuf_wf, h.ibuf_bound, h.obuf_specified, h.outlen_le⟩ <;>
    cases r <;>
    first
      | exact and_and_self _ _
      | exact hz .cmd | exact hz .status | exact hz .errinfo | exact hz .inlen | exact hz .outlen
      | exact hz .ctrLo | exact hz .ctrHi | exact hz .value | exact hz .offset | exact hz .code

theorem State.Inv.completeError {s : State} (h : s.Inv) (e : CmdError) (he : ∀ c j,
    e = .invalidCharacter c j → val32 c = none ∧ j < s.cfg.ibufSize) : (s.completeError e).Inv := by
  have hz := h.hardwired_zero
  obtain ⟨c1, c2, c3, c4⟩ := (Config.wf_iff _).1 h.cfg_wf
  have hn : (errinfoOf e).toNat = (ecode e).toNat + (echar e).toNat * 2^8 + (eindex e).toNat * 2^16 :=
      errinfo_toNat _ _ _
  have b1 := (ecode e).isLt
  have b2 := (echar e).isLt
  have b3 := (eindex e).isLt
  have e1 : ecodeField (errinfoOf e) = (ecode e).toNat := by unfold ecodeField; omega
  have e2 : echarField (errinfoOf e) = echar e := by
    apply BitVec.eq_of_toNat_eq
    rw [echarField, BitVec.extractLsb'_toNat, hn, Nat.shiftRight_eq_div_pow]; omega
  have e3 : eindexField (errinfoOf e) = (eindex e).toNat := by unfold eindexField; omega
  refine ⟨h.cfg_wf, .inr (.inr (.inr rfl)), fun r => ?_, ?_, ?_, ?_, ?_, h.code_lt, h.ibuf_wf, h.obuf_wf,
      h.ibuf_bound, h.obuf_specified, h.outlen_le⟩
  · cases r
    case status => (show (statusError &&& 0x7 : Word) = statusError; decide)
    case errinfo =>
      show errinfoOf e &&& 0xFFFFFF0F = errinfoOf e
      unfold errinfoOf
      ext i hi
      simp only [BitVec.getElem_and, BitVec.getElem_cast, BitVec.getElem_append]
      by_cases h1 : i < 4
      · interval_cases i <;> simp
      · by_cases h2 : i < 8
        · interval_cases i <;> simp
        · interval_cases i <;> simp at *
    all_goals first
      | exact hz .cmd | exact hz .status | exact hz .errinfo | exact hz .inlen | exact hz .outlen
      | exact hz .ctrLo | exact hz .ctrHi | exact hz .value | exact hz .offset | exact hz .code
  all_goals simp only [State.completeError_errinfo, e1, e2, e3]
  · exact ⟨fun _ => rfl, fun _ => by cases e <;> simp [ecode]⟩
  · cases e <;> simp [ecode]
  · cases e <;> simp [ecode, echar, eindex]
  · cases e with
    | invalidCharacter c j =>
      intro _
      obtain ⟨a, b⟩ := he c j rfl
      refine ⟨a, ?_⟩
      simp only [State.completeError_cfg, eindex, BitVec.toNat_ofNat]; omega
    | _ => simp [ecode]

/-- Success keeps the invariant where no error is reported. -/
theorem State.Inv.completeSuccess {s : State} (h : s.Inv) (hs : ecodeField s.errinfo = 0) :
    s.completeSuccess.Inv := by
  have hz := h.hardwired_zero
  refine ⟨h.cfg_wf, .inr (.inr (.inl rfl)), fun r => ?_, ?_, h.ecode_le, h.echar_zero, h.echar_invalid, h.code_lt,
      h.ibuf_wf, h.obuf_wf, h.ibuf_bound, h.obuf_specified, h.outlen_le⟩
  · cases r
    case status => (show (statusSuccess &&& 0x7 : Word) = statusSuccess; decide)
    all_goals first
      | exact hz .cmd | exact hz .status | exact hz .errinfo | exact hz .inlen | exact hz .outlen
      | exact hz .ctrLo | exact hz .ctrHi | exact hz .value | exact hz .offset | exact hz .code
  · simp only [State.completeSuccess_errinfo, hs, State.completeSuccess_status, statusSuccess]; decide

theorem State.Inv.issue {s : State} (h : s.Inv) (w : Word) : (s.issue w).Inv := by
  have hz := h.hardwired_zero
  refine ⟨h.cfg_wf, .inr (.inl rfl), fun r => ?_, (by show ecodeField 0 ≠ 0 ↔ statusBusy = 6; decide),
      (by show ecodeField 0 ≤ 5; decide), fun _ => (by show echarField 0 = 0 ∧ eindexField 0 = 0; decide),
      fun h => absurd h (by show ¬ ecodeField 0 = 1; decide), h.code_lt, h.ibuf_wf, h.obuf_wf, h.ibuf_bound,
      h.obuf_specified, h.outlen_le⟩
  cases r
  case status => (show (statusBusy &&& 0x7 : Word) = statusBusy; decide)
  case cmd => exact and_allOnes _
  case errinfo => show ((0:Word) &&& 0xFFFFFF0F : Word) = 0; decide
  all_goals first
      | exact hz .cmd | exact hz .status | exact hz .errinfo | exact hz .inlen | exact hz .outlen
      | exact hz .ctrLo | exact hz .ctrHi | exact hz .value | exact hz .offset | exact hz .code

theorem State.Inv.commitOutput {s : State} (h : s.Inv) (out : List Byte) (hl : out.length ≤ s.cfg.obufSize) :
    (s.commitOutput out).Inv := by
  have hz := h.hardwired_zero
  obtain ⟨c1, c2, c3, c4⟩ := (Config.wf_iff _).1 h.cfg_wf
  have ho : (s.commitOutput out).outlen.toNat = out.length := by
    rw [State.commitOutput_outlen]
    show (_ &&& 0xFFFF : Word).toNat = _
    rw [toNat_and_len, BitVec.toNat_ofNat]; omega
  refine ⟨h.cfg_wf, h.status_legal, fun r => ?_, h.ecode_iff_error, h.ecode_le, h.echar_zero, h.echar_invalid,
      h.code_lt, h.ibuf_wf, Memory.wf_ofBytes _ _, h.ibuf_bound, fun i => ?_, by rw [ho]; exact hl⟩
  · cases r
    case outlen => exact and_and_self _ _
    all_goals first
      | exact hz .cmd | exact hz .status | exact hz .errinfo | exact hz .inlen | exact hz .outlen
      | exact hz .ctrLo | exact hz .ctrHi | exact hz .value | exact hz .offset | exact hz .code
  · rw [ho, State.commitOutput_obuf, Memory.read_ofBytes_zero]; simp

theorem State.Inv.commitCode {s : State} (h : s.Inv) (v d : Nat) (hd : d ∈ [6,7,8]) :
    (s.commitCode (foldCode v d)).Inv := by
  have hz := h.hardwired_zero
  refine ⟨h.cfg_wf, h.status_legal, fun r => ?_, h.ecode_iff_error, h.ecode_le, h.echar_zero, h.echar_invalid, ?_,
      h.ibuf_wf, h.obuf_wf, h.ibuf_bound, h.obuf_specified, h.outlen_le⟩
  · cases r
    case code => exact and_and_self _ _
    all_goals first
      | exact hz .cmd | exact hz .status | exact hz .errinfo | exact hz .inlen
      | exact hz .outlen | exact hz .ctrLo | exact hz .ctrHi | exact hz .value | exact hz .offset
  · have := foldCode_lt v hd
    rw [State.commitCode_code]; simp only [Reg.mask, ofNat_code_mask v hd, BitVec.toNat_ofNat]; omega

theorem State.Inv.commitTrunc {s : State} (h : s.Inv) (o m) : (s.commitTrunc o m).Inv :=
  State.Inv.writeReg (State.Inv.writeReg h .offset _ (by simp)) .value _ (by simp)

end Sys2Proof.Machine
end

