-- ==== Sys2Proof/Laws/PerInstr.lean ====
section
/-! SUPPORT. A statement made for every command: its encoding lies in its own row of spec/opcode_table.json. -/

namespace Sys2Proof.Laws.TableMatch

/-- The mask of the command's row in opcode_table.json. -/
def rowMask : Instr → Word
  | .b32enc => 0xFFFFFFFF
  | .b32dec => 0xFFFFFFFF
  | .hotpmsg => 0xFFFFFFFF
  | .hotptrunc _ => 0xFFFFCFFF
  | .hotpfold _ => 0xFFFFF0FF
  | .hotpcode _ _ => 0xFFFFC0FF

/-- The match of the command's row in opcode_table.json. -/
def rowMatch : Instr → Word
  | .b32enc => 0x00000001
  | .b32dec => 0x00000002
  | .hotpmsg => 0x00000003
  | .hotptrunc _ => 0x00000004
  | .hotpfold _ => 0x00000005
  | .hotpcode _ _ => 0x00000006

/-- The word of a well-formed command agrees with its row's match under its row's mask, and is none of the words that
the row excludes (ALG = 3). -/
def Statement (i : Instr) : Prop :=
  i.wf = true → encode i &&& rowMask i = rowMatch i ∧ encode i &&& 0x00003000 ≠ 0x00003000

theorem b32enc : Statement .b32enc := fun _ => by decide

theorem b32dec : Statement .b32dec := fun _ => by decide

theorem hotpmsg : Statement .hotpmsg := fun _ => by decide

theorem hotptrunc (alg : Alg) : Statement (.hotptrunc alg) := fun _ => by cases alg <;> decide

theorem hotpfold (digits : Nat) : Statement (.hotpfold digits) := by
  intro h
  have hd : digits < 16 := by simpa [Instr.wf, digitsEncodable] using h
  clear h
  interval_cases digits <;> decide

theorem hotpcode (alg : Alg) (digits : Nat) : Statement (.hotpcode alg digits) := by
  intro h
  have hd : digits < 16 := by simpa [Instr.wf, digitsEncodable] using h
  clear h
  interval_cases digits <;> cases alg <;> decide

end Sys2Proof.Laws.TableMatch
end

