-- ==== Sys2Proof/Tests/Slice0.lean ====
section
/-! SUPPORT. The model's own tests. Expected values are those of spec/95_test_vectors.md, named by their ids, or are written
out from the encodings of spec/30_encoding.md. The second half shows, for every obligation with hypotheses, values that
meet all of them together. -/

namespace Sys2Proof.Tests

open Sys2Proof.Machine

/-! ### Well-formedness -/

theorem test_wf_refuses_hotpfold_16 : (Instr.hotpfold 16).wf = false := by decide

theorem test_wf_refuses_hotpcode_16 : (Instr.hotpcode .sha256 16).wf = false := by decide

theorem test_wf_accepts_15 : (Instr.hotpfold 15).wf = true ∧ (Instr.hotpcode .sha512 15).wf = true := by decide

/-! ### Decoding: RSV(18) ALG(2) DIGITS(4) OP(8), written bit by bit (R100 to R105) -/

theorem test_decode_b32enc : decode 0b000000000000000000_00_0000_00000001 = .cmd .b32enc := by decide

theorem test_decode_b32dec : decode 0b000000000000000000_00_0000_00000010 = .cmd .b32dec := by decide

theorem test_decode_hotpmsg : decode 0b000000000000000000_00_0000_00000011 = .cmd .hotpmsg := by decide

theorem test_decode_hotptrunc :
    decode 0b000000000000000000_00_0000_00000100 = .cmd (.hotptrunc .sha1) ∧
    decode 0b000000000000000000_01_0000_00000100 = .cmd (.hotptrunc .sha256) ∧
    decode 0b000000000000000000_10_0000_00000100 = .cmd (.hotptrunc .sha512) := by decide

theorem test_decode_hotpfold :
    decode 0b000000000000000000_00_0111_00000101 = .cmd (.hotpfold 7) ∧
    decode 0b000000000000000000_00_1111_00000101 = .cmd (.hotpfold 15) := by decide

/-- CMD-12's word and CMD-10's. -/
theorem test_decode_hotpcode :
    decode 0b000000000000000000_10_1000_00000110 = .cmd (.hotpcode .sha512 8) ∧
    decode 0b000000000000000000_00_0101_00000110 = .cmd (.hotpcode .sha1 5) := by decide

/-- CMD-1 to CMD-9, TR-8 and FOLD-EA. -/
theorem test_decode_illegal :
    ∀ w : Word, w ∈ [0x00000000, 0x00000007, 0x000000FF, 0x00004001, 0x80000006, 0x00000601, 0x00001003, 0x00000604,
      0x00003606, 0x00003004, 0x00001605] → decode w = .illegal := by
  intro w h
  fin_cases h <;> decide

theorem test_decodeTableWord :
    decodeTableWord 32 0x00000606 = some (.hotpcode .sha1 6) ∧ decodeTableWord 32 0x00003606 = none := by decide

/-! ### One command at a time -/

/-- The reset state with `n` in INLEN and the bytes in IBUF. -/
def given (n : Nat) (bytes : List Byte) : State :=
  { State.reset with inlen := BitVec.ofNat 32 n, ibuf := Memory.ofBytes 0 bytes }

/-- The state with a command pending. -/
def pending (w : Word) (s : State) : State := { s with cmd := w, status := 0x1, errinfo := 0x0 }

/-- The next state of an outcome, the reset state if there is none. -/
def after : Host.Outcome State Fault Refusal → State
  | .next t => t
  | _ => State.reset

/-- STATUS, ERRINFO, OUTLEN and the first bytes of OBUF. -/
def output (n : Nat) (t : State) : Word × Word × Word × List (Option Byte) :=
  (t.status, t.errinfo, t.outlen, (List.range n).map t.obuf.read)

/-- SHA1-sized digests TR-1 (byte i is i) and TR-2, and H-c4's. -/
def digestTr1 : List Byte := (List.range 20).map (BitVec.ofNat 8)
def digestTr2 : List Byte := List.replicate 19 0xFF ++ [0x0F]
def digestHc4 : List Byte :=
  [0xA9, 0x04, 0xC9, 0x00, 0xA6, 0x4B, 0x35, 0x90, 0x98, 0x74, 0xB3, 0x3E, 0x61, 0xC5, 0x93, 0x8A, 0x8E, 0x15, 0xED, 0x1C]

/-- ENC-8. -/
theorem test_b32enc_enc8 : output 9 (after (exec .b32enc (given 1 [0xFF]))) =
    (0x2, 0, 8, [some 0x37, some 0x34, some 0x3D, some 0x3D, some 0x3D, some 0x3D, some 0x3D, some 0x3D, none]) := by
  decide

/-- ENC-6. -/
theorem test_b32enc_enc6 : output 16 (after (exec .b32enc (given 6 [0x66, 0x6F, 0x6F, 0x62, 0x61, 0x72]))) =
    (0x2, 0, 16, [0x4D, 0x5A, 0x58, 0x57, 0x36, 0x59, 0x54, 0x42, 0x4F, 0x49, 0x3D, 0x3D, 0x3D, 0x3D, 0x3D, 0x3D].map
      some) := by
  decide

/-- DEC-18: only the final group's pads drop bytes. -/
theorem test_b32dec_dec18 :
    output 7 (after (exec .b32dec (given 16
      [0x4D, 0x59, 0x3D, 0x3D, 0x3D, 0x3D, 0x3D, 0x3D, 0x4D, 0x59, 0x3D, 0x3D, 0x3D, 0x3D, 0x3D, 0x3D]))) =
    (0x2, 0, 6, [some 0x66, some 0, some 0, some 0, some 0, some 0x66, none]) := by
  decide

/-- ERR-2. -/
theorem test_b32dec_err2 :
    output 1 (after (exec .b32dec (given 8 [0x41, 0x42, 0x43, 0x44, 0x45, 0x46, 0x47, 0x31]))) =
    (0x6, 0x00073101, 0, [none]) := by
  decide

/-- MSG-2. -/
theorem test_hotpmsg_msg2 :
    output 9 (after (exec .hotpmsg { State.reset with ctrHi := 0x01234567, ctrLo := 0x89ABCDEF })) =
    (0x2, 0, 8, [some 0x01, some 0x23, some 0x45, some 0x67, some 0x89, some 0xAB, some 0xCD, some 0xEF, none]) := by
  decide

/-- TR-2. -/
theorem test_hotptrunc_tr2 :
    let t := after (exec (.hotptrunc .sha1) (given 20 digestTr2))
    (t.status, t.offset, t.value, t.code, t.outlen) = (0x2, 15, 0x7FFFFFFF, 0, 0) := by
  decide

/-- TR-6: 32 is no SHA1 digest's length. -/
theorem test_hotptrunc_tr6 :
    let t := after (exec (.hotptrunc .sha1) (given 32 []))
    (t.status, t.errinfo, t.offset, t.value) = (0x6, 0x3, 0, 0) := by
  decide

/-- FOLD-8: VALUE's bit 31 is hardwired zero. -/
theorem test_hotpfold_fold8 :
    let t := after (exec (.hotpfold 8) (hostMove State.reset (.write 0x01C 32 0xFFFFFFFF)))
    (t.code, output 9 t) = (0x02D48AFF, (0x2, 0, 8,
      [some 0x34, some 0x37, some 0x34, some 0x38, some 0x33, some 0x36, some 0x34, some 0x37, none])) := by
  decide

/-- FOLD-E0: 0 digits is no default. -/
theorem test_hotpfold_e0 : output 1 (after (exec (.hotpfold 0) State.reset)) = (0x6, 0x2, 0, [none]) := by decide

/-- H-c4 with 7 digits: "0338314". -/
theorem test_hotpcode_hc4 :
    let t := after (exec (.hotpcode .sha1 7) (given 20 digestHc4))
    (t.offset, t.value, t.code) = (12, 0x61C5938A, 338314) ∧ output 8 t = (0x2, 0, 7,
      [some 0x30, some 0x33, some 0x33, some 0x38, some 0x33, some 0x31, some 0x34, none]) := by
  decide

/-- CMD-10: InvalidDigits before InvalidLength. -/
theorem test_hotpcode_cmd10 : (after (exec (.hotpcode .sha1 5) (given 7 []))).errinfo = 0x2 := by decide

/-! ### A step, the host -/

/-- The very next step of a fetched word is that command (ENC-1). -/
theorem test_fetched_word :
    output 9 (after (step ((given 1 [0x66]).withFetchWord 32 0x00000001))) =
    (0x2, 0, 8, [some 0x4D, some 0x59, some 0x3D, some 0x3D, some 0x3D, some 0x3D, some 0x3D, some 0x3D, none]) := by
  decide

/-- BUS-1 to BUS-6. -/
theorem test_bus_errors :
    ∀ m, m ∈ [HostMove.read 0x002 32, .read 0x004 8, .read 0x028 32, .write 0x2000 8 0, .read 0x1000 32,
      .write (0x1000 + 320) 8 0] → hostMove State.reset m = { State.reset with responses := [.busError] } := by
  decide

/-- BUS-7 to BUS-9. -/
theorem test_bus_writes :
    hostMove State.reset (.write 0x004 32 0xFFFFFFFF) = { State.reset with responses := [.done] } ∧
    (hostMove (hostMove State.reset (.write 0x00C 32 0xFFFFFFFF)) (.read 0x00C 32)).responses = [.word 0x0000FFFF, .done] ∧
    (hostMove (hostMove State.reset (.write 0x01C 32 0xFFFFFFFF)) (.read 0x01C 32)).responses = [.word 0x7FFFFFFF, .done] := by
  decide

/-- BUS-10 and BUS-11. -/
theorem test_bus_busy :
    (hostMove (pending 0x1 State.reset) (.write 0x1000 8 0x41)).faults.hostHazard = true ∧
    (hostMove (pending 0x1 State.reset) (.write 0x1000 8 0x41)).ibuf = [] ∧
    (hostMove (pending 0x1 State.reset) (.read 0x004 32)).responses = [.word 0x00000001] := by
  decide

/-! ### Witnesses: values that meet all hypotheses of each obligation -/

/-- "MY======", "MZXQ====", "MZXW6===", "MZXW6YQ=", "MZXW6YTB" (DEC-1 to DEC-5). -/
def textPads6 : List Byte := [0x4D, 0x59, 0x3D, 0x3D, 0x3D, 0x3D, 0x3D, 0x3D]
def textPads4 : List Byte := [0x4D, 0x5A, 0x58, 0x51, 0x3D, 0x3D, 0x3D, 0x3D]
def textPads3 : List Byte := [0x4D, 0x5A, 0x58, 0x57, 0x36, 0x3D, 0x3D, 0x3D]
def textPads1 : List Byte := [0x4D, 0x5A, 0x58, 0x57, 0x36, 0x59, 0x51, 0x3D]
def textPads0 : List Byte := [0x4D, 0x5A, 0x58, 0x57, 0x36, 0x59, 0x54, 0x42]

/-- "AAAAAA==" (DEC-8): 2 pads drop nothing. -/
def textPads2 : List Byte := [0x41, 0x41, 0x41, 0x41, 0x41, 0x41, 0x3D, 0x3D]

/-- "1ABCDEFG" (ERR-1) and "ABCDEFG1" (ERR-2). -/
def textErr1 : List Byte := [0x31, 0x41, 0x42, 0x43, 0x44, 0x45, 0x46, 0x47]
def textErr2 : List Byte := [0x41, 0x42, 0x43, 0x44, 0x45, 0x46, 0x47, 0x31]

/-- The bytes of a list as a function, and their symbol values. -/
def at' (bytes : List Byte) (i : Nat) : Byte := bytes.getD i 0
def valueAt (bytes : List Byte) (i : Nat) : Nat := symbolValue (bytes.getD i 0)

theorem given_holds (n : Nat) (bytes : List Byte) (h : n ≤ bytes.length) : ibufHolds (given n bytes) n (at' bytes) := by
  intro i hi
  show (Memory.ofBytes 0 bytes).read i = some (bytes.getD i 0)
  rw [Memory.read_ofBytes_zero, List.getD_eq_getElem?_getD, List.getElem?_eq_getElem (by omega)]
  rfl

theorem witness_DecodeOfEncode :
    Instr.b32enc.wf = true ∧ Instr.b32dec.wf = true ∧ Instr.hotpmsg.wf = true ∧ (Instr.hotptrunc .sha512).wf = true ∧
    (Instr.hotpfold 15).wf = true ∧ (Instr.hotpcode .sha512 15).wf = true := by decide

theorem witness_EncodeOfDecode : decode 0x00002F06 = .cmd (.hotpcode .sha512 15) := by decide

/-- One word for each line of R107's list. -/
theorem witness_IllegalWordsFail :
    ∀ w : Word, w ∈ [0x00004001, 0x80000006, 0x00000000, 0x00000007, 0x000000FF, 0x00000101, 0x00000104, 0x00001001,
        0x00001005, 0x00003004, 0x00003606] →
      illegalWord w ∧ (pending w State.reset).cmd = w ∧ engineNext (pending w State.reset) := by
  unfold illegalWord engineNext
  intro w h
  fin_cases h <;> decide

theorem witness_OpcodeMapWords :
    fieldOp 0x00000600 = 0x00 ∧ 0x07 ≤ fieldOp 0x00000007 ∧ 0x07 ≤ fieldOp 0x000000FF := by decide

theorem witness_AssemblerWords :
    (((none : Option (List Byte)) = none ∨ (none : Option (List Byte)) = some nameSha1) ∧ 0 = 0) ∧
    (some nameSha256 = some nameSha256 ∧ 1 = 1) ∧ (some nameSha512 = some nameSha512 ∧ 2 = 2) ∧ 0 ≤ 15 ∧ 15 ≤ 15 ∧ 15 < 16 ∧
    ([0x4D, 0x44, 0x35] : List Byte) ≠ nameSha1 ∧ ([0x4D, 0x44, 0x35] : List Byte) ≠ nameSha256 ∧
    ([0x4D, 0x44, 0x35] : List Byte) ≠ nameSha512 := by decide

theorem witness_StepRunsDecodedCommand :
    engineNext (pending 0x605 State.reset) ∧ decode (pending 0x605 State.reset).cmd = .cmd (.hotpfold 6) := by
  unfold engineNext
  decide

/-- Idle, and with the host's turn while a command is pending; with a move left, and with none. -/
theorem witness_StepRunsHostMove :
    (hostNext { State.reset with host := [.read 0x004 32] } ∧
      ({ State.reset with host := [.read 0x004 32] } : State).host = .read 0x004 32 :: []) ∧
    hostNext { pending 0x1 State.reset with schedule := [.host], host := [.wait] } ∧
    (hostNext State.reset ∧ State.reset.host = []) := by
  unfold hostNext
  decide

theorem witness_FetchedWordRunsNext :
    (0x00000F05 : Nat) < 2 ^ 32 ∧ decodeTableWord 32 0x00000F05 = some (.hotpfold 15) := by decide

/-- Both ends of both ranges. -/
theorem witness_AlphabetMaps : (0 ≤ 25 ∧ 25 ≤ 25) ∧ (26 ≤ 26 ∧ 26 ≤ 31) ∧ (26 ≤ 31 ∧ 31 ≤ 31) := by decide

/-- An empty input, a short block (ENC-8), and the longest input IBUF holds. -/
theorem witness_B32encEncodes :
    ((given 0 []).cfg.wf = true ∧ inlenOf (given 0 []) ≤ (given 0 []).cfg.ibufSize ∧ ibufHolds (given 0 []) 0 (at' [])) ∧
    ((given 1 [0xFF]).cfg.wf = true ∧ inlenOf (given 1 [0xFF]) ≤ (given 1 [0xFF]).cfg.ibufSize ∧
      inlenOf (given 1 [0xFF]) = 1 ∧ ibufHolds (given 1 [0xFF]) 1 (at' [0xFF])) ∧
    (inlenOf (given 320 (List.replicate 320 0x66)) = (given 320 (List.replicate 320 0x66)).cfg.ibufSize ∧
      ibufHolds (given 320 (List.replicate 320 0x66)) 320 (at' (List.replicate 320 0x66))) :=
  ⟨⟨by decide, by decide, given_holds 0 [] (by decide)⟩,
    ⟨by decide, by decide, by decide, given_holds 1 [0xFF] (by decide)⟩,
    ⟨rfl, given_holds 320 _ (by rw [List.length_replicate])⟩⟩

/-- What B32decDecodes assumes of a text of 8 characters, but for its pads. -/
def TextGiven (t : List Byte) : Prop :=
  (given 8 t).cfg.wf = true ∧ inlenOf (given 8 t) ≤ (given 8 t).cfg.ibufSize ∧ inlenOf (given 8 t) % 8 = 0 ∧
    ibufHolds (given 8 t) (inlenOf (given 8 t)) (at' t) ∧
    (∀ i, i < inlenOf (given 8 t) → val32 (at' t i) = some (valueAt t i))

/-- The empty text, and one text for each count of pads. -/
theorem witness_B32decDecodes :
    (inlenOf (given 0 []) = 0 ∧ inlenOf (given 0 []) % 8 = 0 ∧ ibufHolds (given 0 []) 0 (at' [])) ∧
    (TextGiven textPads1 ∧ trailingPads 8 (at' textPads1) 1) ∧ (TextGiven textPads3 ∧ trailingPads 8 (at' textPads3) 3) ∧
    (TextGiven textPads4 ∧ trailingPads 8 (at' textPads4) 4) ∧ (TextGiven textPads6 ∧ trailingPads 8 (at' textPads6) 6) ∧
    (TextGiven textPads0 ∧ trailingPads 8 (at' textPads0) 0) ∧ (TextGiven textPads2 ∧ trailingPads 8 (at' textPads2) 2) := by
  have holds : ∀ t : List Byte, t.length = 8 → ibufHolds (given 8 t) (inlenOf (given 8 t)) (at' t) :=
    fun t h => given_holds 8 t (by omega)
  unfold TextGiven trailingPads
  exact ⟨⟨by decide, by decide, given_holds 0 [] (by decide)⟩,
    ⟨⟨by decide, by decide, by decide, holds _ rfl, by decide⟩, by decide⟩,
    ⟨⟨by decide, by decide, by decide, holds _ rfl, by decide⟩, by decide⟩,
    ⟨⟨by decide, by decide, by decide, holds _ rfl, by decide⟩, by decide⟩,
    ⟨⟨by decide, by decide, by decide, holds _ rfl, by decide⟩, by decide⟩,
    ⟨⟨by decide, by decide, by decide, holds _ rfl, by decide⟩, by decide⟩,
    ⟨⟨by decide, by decide, by decide, holds _ rfl, by decide⟩, by decide⟩⟩

/-- The first character, and the last. -/
theorem witness_B32decReportsFirstInvalid :
    (inlenOf (given 8 textErr1) ≤ (given 8 textErr1).cfg.ibufSize ∧ inlenOf (given 8 textErr1) % 8 = 0 ∧
      ibufHolds (given 8 textErr1) (inlenOf (given 8 textErr1)) (at' textErr1) ∧ 0 < inlenOf (given 8 textErr1) ∧
      at' textErr1 0 = 0x31 ∧
      ¬((0x41 ≤ (at' textErr1 0).toNat ∧ (at' textErr1 0).toNat ≤ 0x5A) ∨
        (0x32 ≤ (at' textErr1 0).toNat ∧ (at' textErr1 0).toNat ≤ 0x37) ∨ (at' textErr1 0).toNat = 0x3D)) ∧
    (inlenOf (given 8 textErr2) ≤ (given 8 textErr2).cfg.ibufSize ∧ inlenOf (given 8 textErr2) % 8 = 0 ∧
      ibufHolds (given 8 textErr2) (inlenOf (given 8 textErr2)) (at' textErr2) ∧ 7 < inlenOf (given 8 textErr2) ∧
      ¬((0x41 ≤ (at' textErr2 7).toNat ∧ (at' textErr2 7).toNat ≤ 0x5A) ∨
        (0x32 ≤ (at' textErr2 7).toNat ∧ (at' textErr2 7).toNat ≤ 0x37) ∨ (at' textErr2 7).toNat = 0x3D) ∧
      ∀ j, j < 7 → (0x41 ≤ (at' textErr2 j).toNat ∧ (at' textErr2 j).toNat ≤ 0x5A) ∨
        (0x32 ≤ (at' textErr2 j).toNat ∧ (at' textErr2 j).toNat ≤ 0x37) ∨ (at' textErr2 j).toNat = 0x3D) :=
  ⟨⟨by decide, by decide, given_holds 8 textErr1 (by decide), by decide, by decide, by decide⟩,
    ⟨by decide, by decide, given_holds 8 textErr2 (by decide), by decide, by decide, by decide⟩⟩

/-- ENC-1's state after the encoding, with the text copied to IBUF. -/
def copied : State :=
  { State.reset with inlen := 8, ibuf := (after (exec .b32enc (given 1 [0x66]))).obuf }

theorem witness_Base32RoundTrip :
    (given 1 [0x66]).cfg.wf = true ∧ copied.cfg = (given 1 [0x66]).cfg ∧
    inlenOf (given 1 [0x66]) ≤ (given 1 [0x66]).cfg.ibufSize ∧
    ibufHolds (given 1 [0x66]) (inlenOf (given 1 [0x66])) (at' [0x66]) ∧
    exec .b32enc (given 1 [0x66]) = .next (after (exec .b32enc (given 1 [0x66]))) ∧
    8 * ((inlenOf (given 1 [0x66]) + 4) / 5) ≤ (given 1 [0x66]).cfg.ibufSize ∧
    inlenOf copied = 8 * ((inlenOf (given 1 [0x66]) + 4) / 5) ∧
    ∀ i, i < inlenOf copied → copied.ibuf.read i = (after (exec .b32enc (given 1 [0x66]))).obuf.read i :=
  ⟨by decide, rfl, by decide, given_holds 1 [0x66] (by decide), rfl, by decide, by decide, fun _ _ => rfl⟩

/-- A digest of each algorithm's length: TR-2, and TR-4's shape for the others. -/
theorem witness_HotptruncTruncates :
    (inlenOf (given 20 digestTr2) ≤ (given 20 digestTr2).cfg.ibufSize ∧ inlenOf (given 20 digestTr2) = digestLen .sha1 ∧
      ibufHolds (given 20 digestTr2) (digestLen .sha1) (at' digestTr2)) ∧
    (inlenOf (given 32 (List.replicate 32 0xF0)) = digestLen .sha256 ∧
      ibufHolds (given 32 (List.replicate 32 0xF0)) (digestLen .sha256) (at' (List.replicate 32 0xF0))) ∧
    (inlenOf (given 64 (List.replicate 64 0xF0)) = digestLen .sha512 ∧
      ibufHolds (given 64 (List.replicate 64 0xF0)) (digestLen .sha512) (at' (List.replicate 64 0xF0))) :=
  ⟨⟨by decide, by decide, given_holds 20 digestTr2 (by decide)⟩, ⟨rfl, given_holds 32 _ (by decide)⟩,
    ⟨rfl, given_holds 64 _ (by decide)⟩⟩

theorem witness_HotpfoldFolds : 6 ∈ [6, 7, 8] ∧ 7 ∈ [6, 7, 8] ∧ 8 ∈ [6, 7, 8] := by decide

theorem witness_HotpcodeTruncatesAndFolds :
    7 ∈ [6, 7, 8] ∧ inlenOf (given 20 digestHc4) ≤ (given 20 digestHc4).cfg.ibufSize ∧
    inlenOf (given 20 digestHc4) = digestLen .sha1 ∧ ibufHolds (given 20 digestHc4) (digestLen .sha1) (at' digestHc4) :=
  ⟨by decide, by decide, by decide, given_holds 20 digestHc4 (by decide)⟩

/-- H-c4 truncated. -/
def truncated : State := after (exec (.hotptrunc .sha1) (given 20 digestHc4))

theorem witness_HotpcodeIsTruncThenFold :
    exec (.hotptrunc .sha1) (given 20 digestHc4) = .next truncated ∧ truncated.status = 0x2 ∧
    exec (.hotpfold 7) truncated = .next (after (exec (.hotpfold 7) truncated)) ∧
    (after (exec (.hotpfold 7) truncated)).status = 0x2 :=
  ⟨rfl, by decide, rfl, by decide⟩

theorem witness_RenderedDigitsReadBack :
    (exec (.hotpfold 6) State.reset = .next (after (exec (.hotpfold 6) State.reset)) ∧
      (after (exec (.hotpfold 6) State.reset)).status = 0x2) ∧
    (exec (.hotpcode .sha1 8) (given 20 digestHc4) = .next (after (exec (.hotpcode .sha1 8) (given 20 digestHc4))) ∧
      (after (exec (.hotpcode .sha1 8) (given 20 digestHc4))).status = 0x2) :=
  ⟨⟨rfl, by decide⟩, rfl, by decide⟩

/-- The largest results, and the largest codes of 6 and of 8 digits. -/
theorem witness_HotpResultRanges :
    (exec (.hotptrunc .sha1) (given 20 digestTr2) = .next (after (exec (.hotptrunc .sha1) (given 20 digestTr2))) ∧
      (after (exec (.hotptrunc .sha1) (given 20 digestTr2))).status = 0x2) ∧
    (exec (.hotpcode .sha1 8) (given 20 digestTr2) = .next (after (exec (.hotpcode .sha1 8) (given 20 digestTr2))) ∧
      (after (exec (.hotpcode .sha1 8) (given 20 digestTr2))).status = 0x2) ∧
    (6 ∈ [6, 7, 8] ∧ 999999 < 10 ^ 6) ∧ (8 ∈ [6, 7, 8] ∧ 99999999 < 10 ^ 8) :=
  ⟨⟨rfl, by decide⟩, ⟨rfl, by decide⟩, by decide, by decide⟩

theorem witness_DigitsCheckedFirst : 5 ∉ [6, 7, 8] ∧ 9 ∉ [6, 7, 8] ∧ 0 ∉ [6, 7, 8] ∧ 15 ∉ [6, 7, 8] := by decide

/-- ERR-9's length, and both ends of HOTPFOLD. -/
theorem witness_LengthErrorRaised :
    ((given 321 []).cfg.ibufSize < inlenOf (given 321 []) ∧ 6 ∈ [6, 7, 8]) ∧
    exec .hotpmsg (given 321 []) = .next (after (exec .hotpmsg (given 321 []))) ∧
    (exec (.hotpfold 9) (given 321 []) = .next (after (exec (.hotpfold 9) (given 321 []))) ∧
      (after (exec (.hotpfold 9) (given 321 []))).status = 0x6) ∧
    exec (.hotpfold 6) (given 321 []) = .next (after (exec (.hotpfold 6) (given 321 []))) :=
  ⟨⟨by decide, by decide⟩, rfl, ⟨rfl, by decide⟩, rfl⟩

/-- ERR-6 and ERR-7, TR-6 and TR-7. -/
theorem witness_InvalidLengthRaised :
    (inlenOf (given 7 []) ≤ (given 7 []).cfg.ibufSize ∧ inlenOf (given 7 []) % 8 ≠ 0) ∧
    (inlenOf (given 9 []) ≤ (given 9 []).cfg.ibufSize ∧ inlenOf (given 9 []) % 8 ≠ 0) ∧
    (inlenOf (given 32 []) ≤ (given 32 []).cfg.ibufSize ∧ inlenOf (given 32 []) ≠ digestLen .sha1 ∧ 8 ∈ [6, 7, 8]) ∧
    inlenOf (given 20 []) ≠ digestLen .sha256 := by decide

/-- One pending command for each error, one success, one stop. -/
theorem witness_ErrorPriority :
    (engineNext (pending 0x00003606 (given 400 [])) ∧
      step (pending 0x00003606 (given 400 [])) = .next (after (step (pending 0x00003606 (given 400 [])))) ∧
      ((after (step (pending 0x00003606 (given 400 [])))).status, (after (step (pending 0x00003606 (given 400 [])))).errinfo) = (0x6, 0x5)) ∧
    (engineNext (pending 0x00000506 (given 7 [])) ∧
      step (pending 0x00000506 (given 7 [])) = .next (after (step (pending 0x00000506 (given 7 [])))) ∧
      ((after (step (pending 0x00000506 (given 7 [])))).status, (after (step (pending 0x00000506 (given 7 [])))).errinfo) = (0x6, 0x2)) ∧
    (engineNext (pending 0x00000606 (given 400 [])) ∧
      step (pending 0x00000606 (given 400 [])) = .next (after (step (pending 0x00000606 (given 400 [])))) ∧
      ((after (step (pending 0x00000606 (given 400 [])))).status, (after (step (pending 0x00000606 (given 400 [])))).errinfo) = (0x6, 0x4)) ∧
    (engineNext (pending 0x00000002 (given 7 [])) ∧
      step (pending 0x00000002 (given 7 [])) = .next (after (step (pending 0x00000002 (given 7 [])))) ∧
      ((after (step (pending 0x00000002 (given 7 [])))).status, (after (step (pending 0x00000002 (given 7 [])))).errinfo) = (0x6, 0x3)) ∧
    (engineNext (pending 0x00000002 (given 8 textErr1)) ∧
      step (pending 0x00000002 (given 8 textErr1)) = .next (after (step (pending 0x00000002 (given 8 textErr1)))) ∧
      ((after (step (pending 0x00000002 (given 8 textErr1)))).status, (after (step (pending 0x00000002 (given 8 textErr1)))).errinfo) = (0x6, 0x3101)) ∧
    (engineNext (pending 0x00000003 State.reset) ∧
      step (pending 0x00000003 State.reset) = .next (after (step (pending 0x00000003 State.reset))) ∧
      (after (step (pending 0x00000003 State.reset))).status = 0x2) ∧
    (engineNext (pending 0x00000001 (given 1 [])) ∧
      step (pending 0x00000001 (given 1 [])) = stopUnwritten (pending 0x00000001 (given 1 []))) := by
  unfold engineNext
  exact ⟨⟨by decide, rfl, by decide⟩, ⟨by decide, rfl, by decide⟩, ⟨by decide, rfl, by decide⟩,
    ⟨by decide, rfl, by decide⟩, ⟨by decide, rfl, by decide⟩, ⟨by decide, rfl, by decide⟩, by decide, rfl⟩

/-- An error with a character (ERR-2), and one without. -/
theorem witness_ErrorCompletionIsPrecise :
    (engineNext (pending 0x2 (given 8 textErr2)) ∧
      step (pending 0x2 (given 8 textErr2)) = .next (after (step (pending 0x2 (given 8 textErr2)))) ∧
      (after (step (pending 0x2 (given 8 textErr2)))).status = 0x6) ∧
    (engineNext (pending 0x7 State.reset) ∧ step (pending 0x7 State.reset) = .next (after (step (pending 0x7 State.reset))) ∧
      (after (step (pending 0x7 State.reset))).status = 0x6) := by
  unfold engineNext
  exact ⟨⟨by decide, rfl, by decide⟩, by decide, rfl, by decide⟩

theorem witness_CompletionOutcomes : engineNext { pending 0x3 State.reset with schedule := [.engine, .host] } := by
  unfold engineNext
  decide

/-- A text and a digest whose last byte is unspecified. -/
theorem witness_UnwrittenInputStops :
    (inlenOf (given 8 [0x41]) ≤ (given 8 [0x41]).cfg.ibufSize ∧ 7 < inlenOf (given 8 [0x41]) ∧
      (given 8 [0x41]).ibuf.read 7 = none ∧ inlenOf (given 8 [0x41]) % 8 = 0) ∧
    (inlenOf (given 20 []) ≤ (given 20 []).cfg.ibufSize ∧ 19 < inlenOf (given 20 []) ∧ (given 20 []).ibuf.read 19 = none ∧
      inlenOf (given 20 []) = digestLen .sha1 ∧ 6 ∈ [6, 7, 8]) := by decide

/-- A success that stores, a success that does not, and an error. -/
theorem witness_CommandFrame :
    (exec .hotpmsg State.reset = .next (after (exec .hotpmsg State.reset)) ∧
      (after (exec .hotpmsg State.reset)).status = 0x2 ∧ State.reset.cfg.wf = true ∧
      (after (exec .hotpmsg State.reset)).outlen.toNat ≤ 8) ∧
    (exec (.hotptrunc .sha1) (given 20 digestHc4) = .next truncated ∧ truncated.status = 0x2) ∧
    (exec .b32dec (given 7 []) = .next (after (exec .b32dec (given 7 []))) ∧
      (after (exec .b32dec (given 7 []))).status = 0x6) :=
  ⟨⟨rfl, by decide, by decide, by decide⟩, ⟨rfl, by decide⟩, rfl, by decide⟩

/-- Two states that differ in what the command does not read. -/
def elsewhere (s : State) : State := { s with code := 0x123, offset := 0xF, ctrLo := 0x5, value := s.value, schedule := [.host] }

theorem witness_OperandsDetermineResult :
    given 1 [0x66] ≠ elsewhere (given 1 [0x66]) ∧ (given 1 [0x66]).cfg = (elsewhere (given 1 [0x66])).cfg ∧
    (given 1 [0x66]).inlen = (elsewhere (given 1 [0x66])).inlen ∧
    (∀ j, (given 1 [0x66]).ibuf.read j = (elsewhere (given 1 [0x66])).ibuf.read j) ∧
    (given 1 [0x66]).value = (elsewhere (given 1 [0x66])).value :=
  ⟨by decide, rfl, rfl, fun _ => rfl, rfl⟩

/-- A completion, an issue, and a reset while a command is pending. -/
theorem witness_StatusWriters :
    (step (pending 0x3 State.reset) = .next (after (step (pending 0x3 State.reset))) ∧
      (after (step (pending 0x3 State.reset))).status ≠ (pending 0x3 State.reset).status) ∧
    (step { State.reset with host := [.write 0x000 32 0x3] } =
        .next (after (step { State.reset with host := [.write 0x000 32 0x3] })) ∧
      (after (step { State.reset with host := [.write 0x000 32 0x3] })).status ≠ State.reset.status) ∧
    (step { pending 0x3 State.reset with schedule := [.host], host := [.reset] } =
        .next (after (step { pending 0x3 State.reset with schedule := [.host], host := [.reset] })) ∧
      (after (step { pending 0x3 State.reset with schedule := [.host], host := [.reset] })).status ≠
        (pending 0x3 State.reset).status) :=
  ⟨⟨rfl, by decide⟩, ⟨rfl, by decide⟩, rfl, by decide⟩

/-- A write of IBUF's last byte, and a reset. -/
theorem witness_IbufWriters :
    (step { State.reset with host := [.write (0x1000 + 319) 8 0x41] } =
        .next (after (step { State.reset with host := [.write (0x1000 + 319) 8 0x41] })) ∧
      (after (step { State.reset with host := [.write (0x1000 + 319) 8 0x41] })).ibuf ≠ State.reset.ibuf) ∧
    (step { given 1 [0x66] with host := [.reset] } = .next (after (step { given 1 [0x66] with host := [.reset] })) ∧
      (after (step { given 1 [0x66] with host := [.reset] })).ibuf ≠ (given 1 [0x66]).ibuf) :=
  ⟨⟨rfl, by decide⟩, rfl, by decide⟩

theorem witness_CmdWriteIssues : State.reset.busy = false ∧ (pending 0x3 State.reset).busy = true := by decide

/-- Each line of R73's list at its ends, and an access that is no bus error. -/
theorem witness_BusErrors :
    State.reset.cfg.wf = true ∧
    (∀ p, p ∈ [(0x0028, 32), (0x0FFF, 8), (0x1140, 8), (0x1FFF, 8), (0x2200, 8), (0x3FFF, 32), (0x0027, 32), (0x0024, 8),
        (0x0002, 32), (0x1000, 32), (0x113F, 16), (0x2000, 32)] →
      p.1 < 0x4000 ∧ busErrorAccess State.reset.cfg false p.1 p.2) ∧
    busErrorAccess State.reset.cfg true 0x21FF 8 ∧
    ∀ p, p ∈ [(0x0000, 32), (0x0024, 32), (0x1000, 8), (0x113F, 8), (0x2000, 8), (0x21FF, 8)] →
      p.1 < 0x4000 ∧ ¬ busErrorAccess State.reset.cfg false p.1 p.2 := by
  unfold busErrorAccess reservedOffset
  decide

/-- A bus error, a STATUS read, a STATUS write and a read of OBUF's last byte, while BUSY. -/
theorem witness_BusyAccesses :
    (pending 0x3 State.reset).busy = true ∧ (pending 0x3 State.reset).cfg.wf = true ∧
    busErrorAccess (pending 0x3 State.reset).cfg false 0x0028 32 ∧
    (¬ busErrorAccess (pending 0x3 State.reset).cfg false 0x0004 32 ∧ 0x0004 = 0x004 ∧ false = false) ∧
    (¬ busErrorAccess (pending 0x3 State.reset).cfg true 0x0004 32 ∧ ¬(0x0004 = 0x004 ∧ true = false)) ∧
    (¬ busErrorAccess (pending 0x3 State.reset).cfg false 0x21FF 8 ∧ ¬(0x21FF = 0x004 ∧ false = false)) := by
  unfold busErrorAccess reservedOffset
  refine ⟨?_, ?_, ?_, ?_, ?_, ?_⟩ <;> decide

theorem witness_RegisterAccesses : State.reset.busy = false := by decide

theorem witness_ReadOnlyAndHardwiredWrites : (given 5 []).busy = false := by decide

/-- The last byte of IBUF to write; a specified and an unspecified byte of each buffer to read. -/
theorem witness_BufferAccesses :
    State.reset.busy = false ∧ State.reset.cfg.wf = true ∧ 319 < State.reset.cfg.ibufSize ∧
    (0 < (given 1 [0x66]).cfg.ibufSize ∧ (given 1 [0x66]).ibuf.read 0 = some 0x66) ∧
    (319 < State.reset.cfg.ibufSize ∧ State.reset.ibuf.read 319 = none) ∧
    (0 < State.reset.cfg.obufSize ∧ (after (exec .hotpmsg State.reset)).obuf.read 0 = some 0x00) ∧
    (511 < State.reset.cfg.obufSize ∧ State.reset.obuf.read 511 = none) := by decide

/-- The four registers a write can store to, a read-only one, both ends of IBUF, and an address past the window. -/
theorem witness_ReadsPureWritesIdempotent :
    ∀ a, a ∈ [0x00C, 0x014, 0x018, 0x01C, 0x004, 0x1000, 0x1000 + 319, 0x4000] → a ≠ State.reset.cfg.base := by decide

theorem witness_ResetAbandonsPending :
    hostNext { pending 0x3 State.reset with schedule := [.host], host := [.reset, .wait] } ∧
    ({ pending 0x3 State.reset with schedule := [.host], host := [.reset, .wait] } : State).host = .reset :: [.wait] := by
  unfold hostNext
  decide

/-- A fault already recorded, before a next state and before a stop. -/
theorem witness_MarksNeverCleared :
    (((pending 0x3 State.reset).recordFault .hostHazard).faults.has .hostHazard = true ∧
      step ((pending 0x3 State.reset).recordFault .hostHazard) =
        .next (after (step ((pending 0x3 State.reset).recordFault .hostHazard)))) ∧
    step (pending 0x1 (given 1 [])) = .fault (.unwrittenInput ((pending 0x1 (given 1 [])).recordFault .unwrittenInput)) :=
  ⟨⟨by decide, rfl⟩, rfl⟩

/-- Just below and just above the window. -/
theorem witness_OutsideWindowRefused :
    0x7FFF < ({ State.reset with cfg := { Config.reference with base := 0x8000 } } : State).cfg.base ∧
    State.reset.cfg.base + 0x4000 ≤ 0x4000 := by decide

/-- A pending command. -/
theorem pending_inv : (pending 0x605 State.reset).Inv := by
  constructor
  case hardwired_zero => intro r; cases r <;> decide
  case obuf_specified => intro i; simp [pending, State.reset]
  case ibuf_bound => intro c hc; cases hc
  case ibuf_wf => exact Memory.wf_nil
  case obuf_wf => exact Memory.wf_nil
  all_goals decide

theorem witness_StepKeepsInvariant :
    (pending 0x605 State.reset).Inv ∧
    step (pending 0x605 State.reset) = .next (after (step (pending 0x605 State.reset))) :=
  ⟨pending_inv, rfl⟩

theorem witness_PendingCommandCompletes :
    ({ pending 0x3 State.reset with schedule := [.host, .host] } : State).busy = true := by decide

/-- Both cases of BUSY for a turn of WAIT, and WAIT as the next move. -/
theorem witness_WaitEnds :
    State.reset.busy = false ∧ (pending 0x3 State.reset).busy = true ∧
    ({ pending 0x3 State.reset with schedule := [.host], host := [.wait] } : State).host = .wait :: [] := by decide

end Sys2Proof.Tests
end

/-! SUPPORT. Every move of the host, every command and every step keeps the invariant of the state (O44), and a step
that is the host's runs its next move (O7). -/

namespace Sys2Proof.Machine

section
variable {s t : State}

/-! ### What changes no register, buffer or parameter keeps the invariant -/

theorem State.Inv.respond (h : s.Inv) (r : Response) : (s.respond r).Inv :=
  h.of_block rfl (fun _ => rfl) rfl rfl

theorem State.Inv.recordFault (h : s.Inv) (k : FaultKind) : (s.recordFault k).Inv :=
  h.of_block rfl (fun _ => rfl) rfl rfl

theorem State.Inv.recordRefusal (h : s.Inv) : s.recordRefusal.Inv :=
  h.of_block rfl (fun _ => rfl) rfl rfl

theorem State.Inv.setHost (h : s.Inv) (l : List HostMove) : State.Inv { s with host := l } :=
  h.of_block rfl (fun _ => rfl) rfl rfl

theorem inv_afterTurn (h : s.Inv) : (afterTurn s).Inv :=
  h.of_block rfl (fun _ => rfl) rfl rfl

/-! ### Reset and a host write of IBUF -/

theorem stored_platformReset (s : State) (r : Reg) : s.platformReset.stored r = 0 := by
  cases r <;> rfl

theorem State.Inv.platformReset (h : s.Inv) : s.platformReset.Inv where
  cfg_wf := h.cfg_wf
  status_legal := .inl rfl
  hardwired_zero r := by rw [stored_platformReset]; exact BitVec.zero_and
  ecode_iff_error := by simp [ecodeField]
  ecode_le := Nat.zero_le 5
  echar_zero _ := by simp [echarField, eindexField]
  echar_invalid he := by simp [ecodeField] at he
  code_lt := by simp
  ibuf_wf := Memory.wf_nil
  obuf_wf := Memory.wf_nil
  ibuf_bound := by simp
  obuf_specified i := by simp
  outlen_le := Nat.zero_le _

/-- A byte stored inside IBUF (R43). -/
theorem State.Inv.writeIbuf (h : s.Inv) {i : Nat} (hi : i < s.cfg.ibufSize) (b : Byte) :
    State.Inv { s with ibuf := s.ibuf.write i b } where
  cfg_wf := h.cfg_wf
  status_legal := h.status_legal
  hardwired_zero r := h.hardwired_zero r
  ecode_iff_error := h.ecode_iff_error
  ecode_le := h.ecode_le
  echar_zero := h.echar_zero
  echar_invalid := h.echar_invalid
  code_lt := h.code_lt
  ibuf_wf := Memory.wf_write h.ibuf_wf i b
  obuf_wf := h.obuf_wf
  ibuf_bound c hc := by
    rcases Memory.mem_write hc with rfl | hc
    · exact hi
    · exact h.ibuf_bound c hc
  obuf_specified := h.obuf_specified
  outlen_le := h.outlen_le

/-! ### The host's moves -/

theorem inv_hostRead (h : s.Inv) (addr width : Nat) : (hostRead s addr width).Inv := by
  rcases hostRead_cases s addr width with hc | hc | ⟨_, hc⟩ | ⟨_, hc⟩ | ⟨_, hc⟩ | hc <;> rw [hc]
  · exact h.recordRefusal.respond _
  · exact h.respond _
  · exact (h.recordFault _).respond _
  · exact h.respond _
  · exact h.respond _
  · exact (h.recordFault _).respond _

theorem inv_hostWriteReg (h : s.Inv) (r : Reg) (w : Word) : (hostWriteReg s r w).Inv := by
  rcases hostWriteReg_cases s r w with ⟨_, hc⟩ | ⟨hr, hc⟩ | hc <;> rw [hc]
  · exact h.issue w
  · exact h.writeReg r w (by tauto)
  · exact h

theorem inv_hostWrite (h : s.Inv) (addr width : Nat) (data : Word) : (hostWrite s addr width data).Inv := by
  rcases hostWrite_cases s addr width data with hc | hc | ⟨_, hc⟩ | ⟨_, r, _, _, hc⟩ | ⟨_, i, hi, _, _, hc⟩ <;> rw [hc]
  · exact h.recordRefusal.respond _
  · exact h.respond _
  · exact (h.recordFault _).respond _
  · exact (inv_hostWriteReg h r data).respond _
  · exact (h.writeIbuf hi _).respond _

theorem inv_hostWait (h : s.Inv) : (hostWait s).Inv := by
  rw [hostWait_eq]
  split
  · exact (h.respond _).setHost _
  · exact h.respond _

theorem inv_hostMove (h : s.Inv) (m : HostMove) : (hostMove s m).Inv := by
  cases m with
  | read addr width => exact inv_hostRead h addr width
  | write addr width data => exact inv_hostWrite h addr width data
  | wait => exact inv_hostWait h
  | reset => exact h.platformReset

theorem inv_hostTurn (h : s.Inv) : (hostTurn s).Inv := by
  rcases hostTurn_cases s with ⟨_, hc⟩ | ⟨m, rest, _, hc⟩ <;> rw [hc]
  · exact h
  · exact inv_hostMove (h.setHost rest) m

/-! ### What the commands need: results fit OBUF, the error names a byte of the input, ERRINFO is clear -/

theorem length_base32Encode_le {c : Config} (hc : c.wf = true) {bs : List Byte} (hl : bs.length ≤ c.ibufSize) :
    (base32Encode bs).length ≤ c.obufSize := by
  obtain ⟨_, _, hsize, _⟩ := (Config.wf_iff c).1 hc
  rw [length_base32Encode]
  omega

theorem length_base32Decode_le {c : Config} (hc : c.wf = true) {cs : List Byte} (hl : cs.length ≤ c.ibufSize) :
    (base32Decode cs).length ≤ c.obufSize := by
  obtain ⟨_, _, hsize, _⟩ := (Config.wf_iff c).1 hc
  rw [length_base32Decode]
  omega

/-- A counter message and a code of any legal digit count fit OBUF. -/
theorem eight_le_obufSize {c : Config} (hc : c.wf = true) : 8 ≤ c.obufSize := by
  obtain ⟨hi, _, hsize, _⟩ := (Config.wf_iff c).1 hc
  omega

theorem firstInvalid_names_input {cs : List Byte} {e : CmdError} (he : firstInvalid 0 cs = some e) (c : Byte) (j : Nat)
    (hej : e = .invalidCharacter c j) : val32 c = none ∧ j < cs.length := by
  obtain ⟨k, d, hk, hd, _, rfl⟩ := firstInvalid_some he
  cases hej
  obtain ⟨hlt, _⟩ := List.getElem?_eq_some_iff.1 hk
  exact ⟨hd, by omega⟩

/-- While a command is pending no error is reported: issue has cleared ERRINFO (R210). -/
theorem State.Inv.ecode_of_busy (h : s.Inv) (hb : s.busy = true) : ecodeField s.errinfo = 0 := by
  by_contra hne
  rw [State.busy, h.ecode_iff_error.1 hne] at hb
  exact absurd hb (by decide)

/-! ### The commands -/

theorem State.Inv.commitRenderedCode (h : s.Inv) (v : Nat) {d : Nat} (hd : d ∈ [6, 7, 8]) :
    ((s.commitCode (foldCode v d)).commitOutput (renderCode (foldCode v d) d)).Inv := by
  refine (h.commitCode v d hd).commitOutput _ ?_
  have hsize : 8 ≤ s.cfg.obufSize := eight_le_obufSize h.cfg_wf
  have hd8 : d ≤ 8 := by simp at hd; omega
  simpa using hd8.trans hsize

theorem inv_exec_b32enc (h : s.Inv) (he : ecodeField s.errinfo = 0) (hx : exec .b32enc s = .next t) : t.Inv := by
  rcases execB32enc_cases s with ⟨_, hc⟩ | ⟨_, _, hc⟩ | ⟨hn, bs, ⟨hl, _⟩, hc⟩ <;> rw [hc] at hx <;> cases hx
  · exact h.completeError _ nofun
  · exact (h.commitOutput _ (length_base32Encode_le h.cfg_wf (hl ▸ hn))).completeSuccess he

theorem inv_exec_b32dec (h : s.Inv) (he : ecodeField s.errinfo = 0) (hx : exec .b32dec s = .next t) : t.Inv := by
  rcases execB32dec_cases s with ⟨_, hc⟩ | ⟨_, _, hc⟩ | ⟨_, _, _, hc⟩ |
    ⟨hn, _, cs, ⟨hl, _⟩, ⟨e, hf, hc⟩ | ⟨_, hc⟩⟩ <;> rw [hc] at hx <;> cases hx
  · exact h.completeError _ nofun
  · exact h.completeError _ nofun
  · exact h.completeError e fun c j hej =>
      (firstInvalid_names_input hf c j hej).imp_right fun hj => hj.trans_le (hl ▸ hn)
  · exact (h.commitOutput _ (length_base32Decode_le h.cfg_wf (hl ▸ hn))).completeSuccess he

theorem inv_exec_hotpmsg (h : s.Inv) (he : ecodeField s.errinfo = 0) (hx : exec .hotpmsg s = .next t) :
    t.Inv := by
  cases hx
  exact (h.commitOutput _ ((length_counterMessage _).trans_le (eight_le_obufSize h.cfg_wf))).completeSuccess he

theorem inv_exec_hotptrunc (h : s.Inv) (he : ecodeField s.errinfo = 0) {a : Alg}
    (hx : exec (.hotptrunc a) s = .next t) : t.Inv := by
  rcases execHotptrunc_cases a s with ⟨_, hc⟩ | ⟨_, _, hc⟩ | ⟨_, _, _, hc⟩ | ⟨_, _, bs, _, hc⟩ <;>
    rw [hc] at hx <;> cases hx
  · exact h.completeError _ nofun
  · exact h.completeError _ nofun
  · exact (h.commitTrunc _ _).completeSuccess he

theorem inv_exec_hotpfold (h : s.Inv) (he : ecodeField s.errinfo = 0) {d : Nat}
    (hx : exec (.hotpfold d) s = .next t) : t.Inv := by
  rcases execHotpfold_cases d s with ⟨_, hc⟩ | ⟨hd, hc⟩ <;> rw [hc] at hx <;> cases hx
  · exact h.completeError _ nofun
  · exact (h.commitRenderedCode _ hd).completeSuccess he

theorem inv_exec_hotpcode (h : s.Inv) (he : ecodeField s.errinfo = 0) {a : Alg} {d : Nat}
    (hx : exec (.hotpcode a d) s = .next t) : t.Inv := by
  rcases execHotpcode_cases a d s with ⟨_, hc⟩ | ⟨_, _, hc⟩ | ⟨_, _, _, hc⟩ | ⟨_, _, _, _, hc⟩ |
    ⟨hd, _, _, bs, _, hc⟩ <;> rw [hc] at hx <;> cases hx
  · exact h.completeError _ nofun
  · exact h.completeError _ nofun
  · exact h.completeError _ nofun
  · exact ((h.commitTrunc _ _).commitRenderedCode _ hd).completeSuccess he

/-- Success leaves ERRINFO as it was, so a command keeps the invariant only of a state that reports no error. -/
theorem inv_exec (h : s.Inv) (he : ecodeField s.errinfo = 0) {i : Instr} (hx : exec i s = .next t) : t.Inv := by
  cases i with
  | b32enc => exact inv_exec_b32enc h he hx
  | b32dec => exact inv_exec_b32dec h he hx
  | hotpmsg => exact inv_exec_hotpmsg h he hx
  | hotptrunc a => exact inv_exec_hotptrunc h he hx
  | hotpfold d => exact inv_exec_hotpfold h he hx
  | hotpcode a d => exact inv_exec_hotpcode h he hx

/-! ### A step -/

theorem inv_engineStep (h : s.Inv) (hb : s.busy = true) (hs : engineStep s = .next t) : t.Inv := by
  rcases engineStep_cases s with ⟨_, hc⟩ | ⟨i, _, hc⟩ <;> rw [hc] at hs
  · cases hs
    exact h.completeError _ nofun
  · exact inv_exec h (h.ecode_of_busy hb) hs

theorem inv_step (h : s.Inv) (hs : step s = .next t) : t.Inv := by
  rcases engineNext_or_hostNext s with ⟨he, _⟩ | ⟨hh, _⟩
  · rw [step_of_engineNext he] at hs
    exact inv_engineStep (inv_afterTurn h) he.1 hs
  · rw [step_of_hostNext hh] at hs
    cases hs
    exact inv_hostTurn (inv_afterTurn h)

theorem hostTurn_nil (h : s.host = []) : hostTurn s = s := by
  simp only [hostTurn, h]

theorem hostTurn_cons {m : HostMove} {rest : List HostMove} (h : s.host = m :: rest) :
    hostTurn s = hostMove { s with host := rest } m := by
  simp only [hostTurn, h]

end

/-- Settles O44: the engine's step acts on a pending command, of which the invariant gives ECODE = 0; each move of the
host and each command keeps the invariant. -/
theorem stepKeepsInvariant : Obligations.StepKeepsInvariant := fun _ _ h hs => inv_step h hs

/-- Settles O7: a host's step is the host's turn, taken by the head of its list of moves. -/
theorem stepRunsHostMove : Obligations.StepRunsHostMove := by
  intro s hh
  rw [step_of_hostNext hh]
  refine ⟨fun m rest hm => ?_, fun hn => ?_⟩
  · rw [hostTurn_cons (s := afterTurn s) hm]
  · rw [hostTurn_nil (s := afterTurn s) hn]

end Sys2Proof.Machine

/-! SUPPORT. What a command's completion writes (O28), where it stops on unspecified input (O27), and what each move of
the host and each step leaves of STATUS, IBUF and the marks (O30, O31, O37, O41, O42); the state after reset (O39,
O43). -/

namespace Sys2Proof.Machine

section
variable {s t : State} {i : Instr}

/-! ### A command that answers a next state: the error completion, or one commit per group of commands -/

/-- `t` is a way in which `i`, run on `s`, completes: R49's write columns, one constructor for the error completion and
one per group of commands that write the same results. The output of a success fits OBUF (R8). -/
inductive Completion (s : State) : Instr → State → Prop where
  | error {i : Instr} (e : CmdError) : Completion s i (s.completeError e)
  | text {i : Instr} (out : List Byte) (hi : i = .b32enc ∨ i = .b32dec ∨ i = .hotpmsg)
      (hl : s.cfg.wf = true → out.length ≤ s.cfg.obufSize) : Completion s i (s.commitOutput out).completeSuccess
  | trunc (a : Alg) (off : Nat) (v : Word) : Completion s (.hotptrunc a) (s.commitTrunc off v).completeSuccess
  | fold (d c : Nat) (out : List Byte) (hl : s.cfg.wf = true → out.length ≤ s.cfg.obufSize) :
      Completion s (.hotpfold d) ((s.commitCode c).commitOutput out).completeSuccess
  | code (a : Alg) (d off c : Nat) (v : Word) (out : List Byte)
      (hl : s.cfg.wf = true → out.length ≤ s.cfg.obufSize) :
      Completion s (.hotpcode a d) (((s.commitTrunc off v).commitCode c).commitOutput out).completeSuccess

/-- A code of a legal digit count fits OBUF. -/
theorem length_renderCode_le {c : Config} (hc : c.wf = true) (v : Nat) {d : Nat} (hd : d ∈ [6, 7, 8]) :
    (renderCode v d).length ≤ c.obufSize := by
  have hsize : 8 ≤ c.obufSize := eight_le_obufSize hc
  have hd8 : d ≤ 8 := by simp at hd; omega
  simpa using hd8.trans hsize

theorem completion_of_exec (h : exec i s = .next t) : Completion s i t := by
  cases i with
  | b32enc =>
    rcases execB32enc_cases s with ⟨_, hc⟩ | ⟨_, _, hc⟩ | ⟨hn, bs, ⟨hl, _⟩, hc⟩ <;> rw [hc] at h <;> cases h
    · exact .error _
    · exact .text _ (by simp) fun hwf => length_base32Encode_le hwf (hl ▸ hn)
  | b32dec =>
    rcases execB32dec_cases s with ⟨_, hc⟩ | ⟨_, _, hc⟩ | ⟨_, _, _, hc⟩ |
      ⟨hn, _, cs, ⟨hl, _⟩, ⟨e, _, hc⟩ | ⟨_, hc⟩⟩ <;> rw [hc] at h <;> cases h
    · exact .error _
    · exact .error _
    · exact .error _
    · exact .text _ (by simp) fun hwf => length_base32Decode_le hwf (hl ▸ hn)
  | hotpmsg =>
    cases h
    exact .text _ (by simp) fun hwf => (length_counterMessage _).trans_le (eight_le_obufSize hwf)
  | hotptrunc a =>
    rcases execHotptrunc_cases a s with ⟨_, hc⟩ | ⟨_, _, hc⟩ | ⟨_, _, _, hc⟩ | ⟨_, _, _, _, hc⟩ <;>
      rw [hc] at h <;> cases h
    · exact .error _
    · exact .error _
    · exact .trunc _ _ _
  | hotpfold d =>
    rcases execHotpfold_cases d s with ⟨_, hc⟩ | ⟨hd, hc⟩ <;> rw [hc] at h <;> cases h
    · exact .error _
    · exact .fold _ _ _ fun hwf => length_renderCode_le hwf _ hd
  | hotpcode a d =>
    rcases execHotpcode_cases a d s with ⟨_, hc⟩ | ⟨_, _, hc⟩ | ⟨_, _, _, hc⟩ | ⟨_, _, _, _, hc⟩ |
      ⟨hd, _, _, _, _, hc⟩ <;> rw [hc] at h <;> cases h
    · exact .error _
    · exact .error _
    · exact .error _
    · exact .code _ _ _ _ _ _ fun hwf => length_renderCode_le hwf _ hd

/-- INLEN and the counter are read only by commands. -/
theorem Completion.operands (h : Completion s i t) : t.inlen = s.inlen ∧ t.ctrLo = s.ctrLo ∧ t.ctrHi = s.ctrHi := by
  cases h <;> exact ⟨rfl, rfl, rfl⟩

theorem Completion.errinfo_of_success (h : Completion s i t) (ht : t.status = 0x2) : t.errinfo = s.errinfo := by
  cases h with
  | error => exact absurd ht (by simp [statusError])
  | _ => rfl

theorem Completion.output_kept (h : Completion s i t) (hk : t.status = 0x6 ∨ ∃ a, i = .hotptrunc a) :
    t.outlen = s.outlen ∧ t.code = s.code ∧ t.obuf = s.obuf := by
  cases h with
  | error => exact ⟨rfl, rfl, rfl⟩
  | trunc => exact ⟨rfl, rfl, rfl⟩
  | text out hi => rcases hi with rfl | rfl | rfl <;> simp [statusSuccess] at hk
  | fold => simp [statusSuccess] at hk
  | code => simp [statusSuccess] at hk

theorem Completion.code_kept (h : Completion s i t)
    (hk : t.status = 0x6 ∨ i = .b32enc ∨ i = .b32dec ∨ i = .hotpmsg) : t.code = s.code := by
  cases h with
  | fold => simp [statusSuccess] at hk
  | code => simp [statusSuccess] at hk
  | _ => rfl

theorem Completion.truncation_kept (h : Completion s i t)
    (hk : t.status = 0x6 ∨ i = .b32enc ∨ i = .b32dec ∨ i = .hotpmsg ∨ ∃ d, i = .hotpfold d) :
    t.value = s.value ∧ t.offset = s.offset := by
  cases h with
  | trunc => simp [statusSuccess] at hk
  | code => simp [statusSuccess] at hk
  | _ => exact ⟨rfl, rfl⟩

/-- OUTLEN holds the length of an output that fits OBUF (R8), so every byte from OUTLEN on is unspecified (R44). -/
theorem commitOutput_read_none (s : State) {c : Config} (hc : c.wf = true) {out : List Byte}
    (hl : out.length ≤ c.obufSize) {j : Nat} (hj : (s.commitOutput out).outlen.toNat ≤ j) :
    (s.commitOutput out).obuf.read j = none := by
  obtain ⟨_, _, _, hsize⟩ := (Config.wf_iff c).1 hc
  have hlen : (s.commitOutput out).outlen.toNat = out.length % 2 ^ 32 % 2 ^ 16 := toNat_and_len _
  rw [State.commitOutput_obuf, Memory.read_ofBytes_zero]
  exact List.getElem?_eq_none (by omega)

theorem Completion.obuf_unspecified (h : Completion s i t) (ht : t.status = 0x2) (hi : ∀ a, i ≠ .hotptrunc a)
    (hwf : s.cfg.wf = true) {j : Nat} (hj : t.outlen.toNat ≤ j) : t.obuf.read j = none := by
  cases h with
  | error => exact absurd ht (by simp [statusError])
  | trunc a => exact absurd rfl (hi a)
  | text out _ hl => exact commitOutput_read_none s hwf (hl hwf) hj
  | fold d c out hl => exact commitOutput_read_none (s.commitCode c) hwf (hl hwf) hj
  | code a d off c v out hl => exact commitOutput_read_none ((s.commitTrunc off v).commitCode c) hwf (hl hwf) hj

/-! ### Unspecified input -/

theorem execB32enc_stops (hn : inlenOf s ≤ s.cfg.ibufSize) (hm : inputMissing s (inlenOf s)) :
    exec .b32enc s = stopUnwritten s := by
  rcases execB32enc_cases s with ⟨hlong, _⟩ | ⟨_, _, hc⟩ | ⟨_, bs, hbs, _⟩
  · omega
  · exact hc
  · exact absurd hbs (inputMissing_not_inputIs hm)

theorem execB32dec_stops (hn : inlenOf s ≤ s.cfg.ibufSize) (h8 : inlenOf s % 8 = 0)
    (hm : inputMissing s (inlenOf s)) : exec .b32dec s = stopUnwritten s := by
  rcases execB32dec_cases s with ⟨hlong, _⟩ | ⟨_, hbad, _⟩ | ⟨_, _, _, hc⟩ | ⟨_, _, cs, hcs, _⟩
  · omega
  · exact absurd h8 hbad
  · exact hc
  · exact absurd hcs (inputMissing_not_inputIs hm)

theorem execHotptrunc_stops {a : Alg} (hn : inlenOf s ≤ s.cfg.ibufSize) (hl : inlenOf s = digestLen a)
    (hm : inputMissing s (digestLen a)) : exec (.hotptrunc a) s = stopUnwritten s := by
  rcases execHotptrunc_cases a s with ⟨hlong, _⟩ | ⟨_, hbad, _⟩ | ⟨_, _, _, hc⟩ | ⟨_, _, bs, hbs, _⟩
  · omega
  · exact absurd hl hbad
  · exact hc
  · exact absurd hbs (inputMissing_not_inputIs hm)

theorem execHotpcode_stops {a : Alg} {d : Nat} (hd : d ∈ [6, 7, 8]) (hn : inlenOf s ≤ s.cfg.ibufSize)
    (hl : inlenOf s = digestLen a) (hm : inputMissing s (digestLen a)) :
    exec (.hotpcode a d) s = stopUnwritten s := by
  rcases execHotpcode_cases a d s with ⟨hbad, _⟩ | ⟨_, hlong, _⟩ | ⟨_, _, hbad, _⟩ | ⟨_, _, _, _, hc⟩ |
    ⟨_, _, _, bs, hbs, _⟩
  · exact absurd hd hbad
  · omega
  · exact absurd hl hbad
  · exact hc
  · exact absurd hbs (inputMissing_not_inputIs hm)

/-! ### The engine's step -/

/-- No completion writes the parameters, IBUF or a mark. -/
theorem engineStep_frame (h : engineStep s = .next t) :
    t.cfg = s.cfg ∧ t.ibuf = s.ibuf ∧ t.faults = s.faults ∧ t.refusal = s.refusal := by
  rcases engineStep_cases s with ⟨_, hc⟩ | ⟨i, _, hc⟩ <;> rw [hc] at h
  · cases h
    exact ⟨rfl, rfl, rfl, rfl⟩
  · obtain ⟨hcfg, _, hibuf, hfaults, hrefusal, _⟩ := exec_frame h
    exact ⟨hcfg, hibuf, hfaults, hrefusal⟩

theorem engineStep_status (h : engineStep s = .next t) : t.status = 0x2 ∨ t.status = 0x6 := by
  rcases engineStep_outcome s with ⟨e, hc⟩ | hc | ⟨u, hc, hu, _⟩ <;> rw [hc] at h <;> cases h
  · exact .inr rfl
  · exact .inl hu

/-- The only stop is the one on unspecified input. -/
theorem engineStep_fault {f : Fault} (h : engineStep s = .fault f) :
    f = .unwrittenInput (s.recordFault .unwrittenInput) := by
  rcases engineStep_outcome s with ⟨e, hc⟩ | hc | ⟨u, hc, _⟩ <;> rw [hc] at h <;> cases h
  rfl

/-! ### Which moves of the host change STATUS and IBUF -/

theorem hostRead_block (s : State) (addr width : Nat) :
    (hostRead s addr width).status = s.status ∧ (hostRead s addr width).ibuf = s.ibuf := by
  rcases hostRead_cases s addr width with hc | hc | ⟨_, hc⟩ | ⟨_, hc⟩ | ⟨_, hc⟩ | hc <;> rw [hc] <;>
    exact ⟨rfl, rfl⟩

theorem hostWait_block (s : State) : (hostWait s).status = s.status ∧ (hostWait s).ibuf = s.ibuf := by
  rw [hostWait_eq]
  split <;> exact ⟨rfl, rfl⟩

theorem hostWriteReg_ibuf (s : State) (r : Reg) (w : Word) : (hostWriteReg s r w).ibuf = s.ibuf := by
  rcases hostWriteReg_cases s r w with ⟨_, hc⟩ | ⟨hr, hc⟩ | hc <;> rw [hc]
  · rfl
  · rcases hr with rfl | rfl | rfl | rfl <;> rfl

theorem hostWriteReg_status {r : Reg} {w : Word} (h : (hostWriteReg s r w).status ≠ s.status) :
    r = .cmd ∧ hostWriteReg s r w = s.issue w := by
  rcases hostWriteReg_cases s r w with hc | ⟨hr, hc⟩ | hc
  · exact hc
  · rw [hc] at h
    rcases hr with rfl | rfl | rfl | rfl <;> exact absurd rfl h
  · rw [hc] at h
    exact absurd rfl h

/-- A move that changes STATUS issues a command while idle, or is the platform's reset (R34). -/
theorem hostMove_status {m : HostMove} (h : (hostMove s m).status ≠ s.status) :
    (s.busy = false ∧ ∃ w, m = .write s.cfg.base 32 w ∧ hostMove s m = (s.issue w).respond .done) ∨ m = .reset := by
  cases m with
  | read addr width => exact absurd (hostRead_block s addr width).1 h
  | wait => exact absurd (hostWait_block s).1 h
  | reset => exact .inr rfl
  | write addr width data =>
    simp only [hostMove] at h ⊢
    rcases hostWrite_cases s addr width data with hc | hc | ⟨_, hc⟩ | ⟨hb, r, rfl, rfl, hc⟩ | ⟨_, i, _, _, _, hc⟩ <;>
      rw [hc] at h
    · exact absurd rfl h
    · exact absurd rfl h
    · exact absurd rfl h
    · obtain ⟨rfl, hissue⟩ := hostWriteReg_status h
      exact .inl ⟨hb, data, rfl, by rw [hc, hissue]⟩
    · exact absurd rfl h

/-- A move that changes IBUF writes one byte of it while idle, or is the platform's reset (R43). -/
theorem hostMove_ibuf {m : HostMove} (h : (hostMove s m).ibuf ≠ s.ibuf) :
    (s.busy = false ∧ ∃ i data, i < s.cfg.ibufSize ∧ m = .write (s.cfg.base + (0x1000 + i)) 8 data ∧
      (hostMove s m).ibuf = s.ibuf.write i (data.extractLsb' 0 8)) ∨ m = .reset := by
  cases m with
  | read addr width => exact absurd (hostRead_block s addr width).2 h
  | wait => exact absurd (hostWait_block s).2 h
  | reset => exact .inr rfl
  | write addr width data =>
    simp only [hostMove] at h ⊢
    rcases hostWrite_cases s addr width data with hc | hc | ⟨_, hc⟩ | ⟨_, r, _, _, hc⟩ | ⟨hb, i, hi, rfl, rfl, hc⟩ <;>
      rw [hc] at h
    · exact absurd rfl h
    · exact absurd rfl h
    · exact absurd rfl h
    · exact absurd (hostWriteReg_ibuf s r data) h
    · exact .inl ⟨hb, i, data, hi, rfl, by rw [hc]; rfl⟩

/-! ### Byte accesses and accesses outside the window -/

/-- Bits 7:0 of the data of a host write (log 10). -/
theorem lowByte_eq_ofNat (data : Word) : data.extractLsb' 0 8 = BitVec.ofNat 8 data.toNat :=
  BitVec.eq_of_toNat_eq (by simp)

theorem hostMove_write_ibuf (hb : s.busy = false) {i : Nat} (hi : i < s.cfg.ibufSize) (hwin : 0x1000 + i < 0x4000)
    (data : Word) : hostMove s (.write (s.cfg.base + (0x1000 + i)) 8 data) =
      ({ s with ibuf := s.ibuf.write i (BitVec.ofNat 8 data.toNat) }).respond .done := by
  simp only [hostMove, hostWrite, windowOffset_of_offset s.cfg hwin, busTarget_ibuf s.cfg true hi, hostWriteTarget, hb,
    Bool.false_eq_true, if_false, lowByte_eq_ofNat]

theorem hostMove_read_ibuf (hb : s.busy = false) {i : Nat} (hi : i < s.cfg.ibufSize) (hwin : 0x1000 + i < 0x4000) :
    hostMove s (.read (s.cfg.base + (0x1000 + i)) 8) = hostReadByte s.ibuf i s := by
  simp only [hostMove, hostRead, windowOffset_of_offset s.cfg hwin, busTarget_ibuf s.cfg false hi, hostReadTarget, hb,
    Bool.false_eq_true, if_false]

theorem hostMove_read_obuf (hb : s.busy = false) (hc : s.cfg.wf = true) {i : Nat} (hi : i < s.cfg.obufSize)
    (hwin : 0x2000 + i < 0x4000) : hostMove s (.read (s.cfg.base + (0x2000 + i)) 8) = hostReadByte s.obuf i s := by
  simp only [hostMove, hostRead, windowOffset_of_offset s.cfg hwin, busTarget_obuf s.cfg hc hi, hostReadTarget, hb,
    Bool.false_eq_true, if_false]

theorem hostReadByte_of_specified {m : Memory} {i : Nat} {b : Byte} (h : m.read i = some b) :
    hostReadByte m i s = s.respond (.byte b) := by
  simp only [hostReadByte, h]

theorem hostReadByte_of_unspecified {m : Memory} {i : Nat} (h : m.read i = none) :
    hostReadByte m i s = (s.recordFault .unspecifiedRead).respond .unspecified := by
  simp only [hostReadByte, h]

theorem hostRead_outside {addr : Nat} (width : Nat) (h : windowOffset s.cfg addr = none) :
    hostRead s addr width = hostNoMeaning s := by
  simp only [hostRead, h]

theorem hostWrite_outside {addr : Nat} (width : Nat) (data : Word) (h : windowOffset s.cfg addr = none) :
    hostWrite s addr width data = hostNoMeaning s := by
  simp only [hostWrite, h]

/-! ### The state after reset -/

theorem stored_reset (r : Reg) : State.reset.stored r = 0 := by
  cases r <;> rfl

theorem inv_reset : State.reset.Inv where
  cfg_wf := by decide
  status_legal := .inl rfl
  hardwired_zero r := by rw [stored_reset]; exact BitVec.zero_and
  ecode_iff_error := by decide
  ecode_le := by decide
  echar_zero := by decide
  echar_invalid := by decide
  code_lt := by decide
  ibuf_wf := Memory.wf_nil
  obuf_wf := Memory.wf_nil
  ibuf_bound := nofun
  obuf_specified i := by simp [State.reset]
  outlen_le := Nat.zero_le _

end

/-! ### The obligations -/

/-- Settles O27: of each reading command's cases only the stop is left, since the length checks pass and no list of bytes
is what IBUF holds. -/
theorem unwrittenInputStops : Obligations.UnwrittenInputStops := by
  intro s i hn hi hr
  have hm : inputMissing s (inlenOf s) := ⟨i, hi, hr⟩
  refine ⟨execB32enc_stops hn hm, fun h8 => execB32dec_stops hn h8 hm, fun a hl => ?_⟩
  exact ⟨execHotptrunc_stops hn hl (hl ▸ hm), fun d hd => execHotpcode_stops hd hn hl (hl ▸ hm)⟩

/-- Settles O28: each clause holds of every way in which a command completes. -/
theorem commandFrame : Obligations.CommandFrame := by
  intro i s t h
  have hx : Completion s i t := completion_of_exec h
  obtain ⟨hcfg, hcmd, hibuf, hfaults, hrefusal, hhost, hresponses, hschedule⟩ := exec_frame h
  obtain ⟨hinlen, hlo, hhi⟩ := hx.operands
  refine ⟨⟨hcfg, hcmd, hinlen, hlo, hhi, hfaults, hrefusal, hhost, hresponses, hschedule, fun j => by rw [hibuf]⟩,
    hx.errinfo_of_success, fun hk => ?_, hx.code_kept, hx.truncation_kept,
    fun ht hi hwf j hj => hx.obuf_unspecified ht hi hwf hj⟩
  obtain ⟨houtlen, hcode, hobuf⟩ := hx.output_kept hk
  exact ⟨houtlen, hcode, fun j => by rw [hobuf]⟩

/-- Settles O30: a completion ends with STATUS 0x2 or 0x6, and of the host's moves only an issue and reset change it. -/
theorem statusWriters : Obligations.StatusWriters := by
  intro s t hs hne
  rcases engineNext_or_hostNext s with ⟨he, _⟩ | ⟨hh, _⟩
  · rw [step_of_engineNext he] at hs
    exact .inl ⟨he, engineStep_status hs⟩
  · rw [step_of_hostNext hh] at hs
    cases hs
    rcases hostTurn_cases (afterTurn s) with ⟨_, hc⟩ | ⟨m, rest, hm, hc⟩ <;> rw [hc] at hne ⊢
    · exact absurd rfl hne
    · rcases hostMove_status hne with ⟨hb, w, rfl, hissue⟩ | rfl
      · rw [hissue]
        exact .inr (.inl ⟨hh, hb, rfl, w, rest, hm, rfl⟩)
      · exact .inr (.inr ⟨hh, rfl, rest, hm⟩)

/-- Settles O31: no completion writes IBUF, and of the host's moves only a byte write while idle and reset change it. -/
theorem ibufWriters : Obligations.IbufWriters := by
  intro s t hs hne
  rcases engineNext_or_hostNext s with ⟨he, _⟩ | ⟨hh, _⟩
  · rw [step_of_engineNext he] at hs
    obtain ⟨_, hibuf, _⟩ := engineStep_frame hs
    exact absurd hibuf hne
  · rw [step_of_hostNext hh] at hs
    cases hs
    rcases hostTurn_cases (afterTurn s) with ⟨_, hc⟩ | ⟨m, rest, hm, hc⟩ <;> rw [hc] at hne ⊢
    · exact absurd rfl hne
    · rcases hostMove_ibuf hne with ⟨hb, i, data, hi, rfl, hwrite⟩ | rfl
      · refine .inl ⟨hb, i, data, rest, hi, hm, fun j hj => ?_⟩
        rw [hwrite, Memory.read_write, if_neg hj]
        rfl
      · exact .inr ⟨hh, rfl, rest, hm⟩

/-- Settles O37: both buffers lie inside the window (R8), so a byte access reaches its byte. -/
theorem bufferAccesses : Obligations.BufferAccesses := by
  intro s hb hwf
  obtain ⟨_, hibuf, _, hobuf⟩ := (Config.wf_iff s.cfg).1 hwf
  refine ⟨fun i data hi => ⟨_, hostMove_write_ibuf hb hi (by omega) data, Memory.read_write _ _ _⟩,
    fun win size m i hm hi => ?_⟩
  have hread : hostMove s (.read (s.cfg.base + (win + i)) 8) = hostReadByte m i s := by
    rcases hm with ⟨rfl, rfl, rfl⟩ | ⟨rfl, rfl, rfl⟩
    · exact hostMove_read_ibuf hb hi (by omega)
    · exact hostMove_read_obuf hb hwf hi (by omega)
  rw [hread]
  exact ⟨fun b h => hostReadByte_of_specified h, fun h => hostReadByte_of_unspecified h⟩

/-- Settles O41: neither a completion nor a host's move clears a mark, and a stop inserts UnwrittenInput. -/
theorem marksNeverCleared : Obligations.MarksNeverCleared := by
  intro s
  rcases engineNext_or_hostNext s with ⟨he, _⟩ | ⟨hh, _⟩
  · rw [step_of_engineNext he]
    refine ⟨fun t hs => ?_, fun t hs => ?_⟩
    · obtain ⟨hcfg, _, hfaults, hrefusal⟩ := engineStep_frame hs
      exact ⟨fun k hk => by rw [hfaults]; exact hk, fun hr => by rw [hrefusal]; exact hr, hcfg⟩
    · cases engineStep_fault hs
      exact ⟨fun k => FaultSet.has_insert _ _ _, rfl⟩
  · rw [step_of_hostNext hh]
    refine ⟨fun t hs => ?_, nofun⟩
    cases hs
    rcases hostTurn_cases (afterTurn s) with ⟨_, hc⟩ | ⟨m, rest, _, hc⟩ <;> rw [hc]
    · exact ⟨fun _ hk => hk, fun hr => hr, rfl⟩
    · exact hostMove_marks { afterTurn s with host := rest } m

/-- Settles O39: the reset state lists no byte in either buffer and holds 0 in every register. -/
theorem stateAfterReset : Obligations.StateAfterReset :=
  ⟨stored_reset, Memory.read_nil, Memory.read_nil, rfl⟩

/-- Settles O42: such an address has no offset in the window. -/
theorem outsideWindowRefused : Obligations.OutsideWindowRefused := by
  intro s addr width data h
  have hout : windowOffset s.cfg addr = none := (windowOffset_eq_none_iff s.cfg addr).2 h
  exact ⟨hostRead_outside width hout, hostWrite_outside width data hout⟩

/-- Settles O43: every register is zero, so no error is reported and OUTLEN is 0, and both buffers are empty. -/
theorem invariantAtReset : Obligations.InvariantAtReset := inv_reset

end Sys2Proof.Machine

/-! SUPPORT. What an access of the host does at an offset of the window (O33), what it does to a register (O35, O36), and
that reads are pure and stores idempotent (O38). -/

namespace Sys2Proof.Machine

section
variable {s : State}

/-! ### Which part of the block an access reaches -/

theorem hostRead_refused {addr width off : Nat} (ho : windowOffset s.cfg addr = some off)
    (ht : busTarget s.cfg false off width = none) : hostRead s addr width = hostBusError s := by
  simp only [hostRead, ho, ht]

theorem hostRead_reached {addr width off : Nat} {t : Target} (ho : windowOffset s.cfg addr = some off)
    (ht : busTarget s.cfg false off width = some t) : hostRead s addr width = hostReadTarget s t := by
  simp only [hostRead, ho, ht]

theorem hostWrite_refused {addr width off : Nat} {data : Word} (ho : windowOffset s.cfg addr = some off)
    (ht : busTarget s.cfg true off width = none) : hostWrite s addr width data = hostBusError s := by
  simp only [hostWrite, ho, ht]

theorem hostWrite_reached {addr width off : Nat} {data : Word} {t : Target} (ho : windowOffset s.cfg addr = some off)
    (ht : busTarget s.cfg true off width = some t) : hostWrite s addr width data = hostWriteTarget s data t := by
  simp only [hostWrite, ho, ht]

/-! ### Answers and the marks that go with them -/

/-- The host gets the answer `r`, and the mark that goes with it is set: the refusal mark with `noMeaning` (log 7),
HostHazard with `hazard` (R255), UnspecifiedRead with `unspecified` (R257), none with any other answer. -/
def State.answer (s : State) (r : Response) : State :=
  match r with
  | .noMeaning => s.recordRefusal.respond .noMeaning
  | .hazard => (s.recordFault .hostHazard).respond .hazard
  | .unspecified => (s.recordFault .unspecifiedRead).respond .unspecified
  | r => s.respond r

/-- `t` differs from `s` at most in the model's marks and in the host's answers. -/
def SameBlock (s t : State) : Prop :=
  ∃ f x rs, t = { s with faults := f, refusal := x, responses := rs }

theorem SameBlock.refl (s : State) : SameBlock s s := ⟨_, _, _, rfl⟩

section
variable {t : State} (h : SameBlock s t)
include h

theorem SameBlock.cfg : t.cfg = s.cfg := by obtain ⟨f, x, rs, rfl⟩ := h; rfl
theorem SameBlock.busy : t.busy = s.busy := by obtain ⟨f, x, rs, rfl⟩ := h; rfl
theorem SameBlock.ibuf : t.ibuf = s.ibuf := by obtain ⟨f, x, rs, rfl⟩ := h; rfl
theorem SameBlock.obuf : t.obuf = s.obuf := by obtain ⟨f, x, rs, rfl⟩ := h; rfl
theorem SameBlock.readReg (r : Reg) : t.readReg r = s.readReg r := by obtain ⟨f, x, rs, rfl⟩ := h; rfl

end

theorem State.answer_eq (s : State) (r : Response) :
    s.answer r = { s with
      faults := (s.answer r).faults, refusal := (s.answer r).refusal, responses := r :: s.responses } := by
  cases r <;> rfl

theorem sameBlock_answer (s : State) (r : Response) : SameBlock s (s.answer r) := ⟨_, _, _, s.answer_eq r⟩

@[simp] theorem State.answer_responses (s : State) (r : Response) : (s.answer r).responses = r :: s.responses := by
  cases r <;> rfl

/-- The mark is set already when the same answer comes again. -/
theorem State.answer_answer (s : State) (r : Response) :
    (s.answer r).answer r = { s.answer r with responses := r :: (s.answer r).responses } := by
  cases r <;> rfl

/-! ### A read's answer depends on the block alone -/

theorem hostReadByte_answers (m : Memory) (i : Nat) : ∃ r ≠ .busError, ∀ t, hostReadByte m i t = t.answer r := by
  cases hm : m.read i with
  | some b => exact ⟨.byte b, nofun, fun t => hostReadByte_of_specified hm⟩
  | none => exact ⟨.unspecified, nofun, fun t => hostReadByte_of_unspecified hm⟩

theorem hostReadTarget_hazard {tgt : Target} (hb : s.busy = true) (hne : tgt ≠ .reg .status) :
    hostReadTarget s tgt = hostHazard s := by
  cases tgt with
  | reg r =>
    cases r with
    | status => exact absurd rfl hne
    | _ => exact if_pos hb
  | ibuf i => exact if_pos hb
  | obuf i => exact if_pos hb

theorem hostReadTarget_reg (hb : s.busy = false) (r : Reg) :
    hostReadTarget s (.reg r) = s.respond (.word (s.readReg r)) := by
  cases r <;> simp [hostReadTarget, hb]

theorem hostReadTarget_ibuf (hb : s.busy = false) (i : Nat) :
    hostReadTarget s (.ibuf i) = hostReadByte s.ibuf i s := by
  simp [hostReadTarget, hb]

theorem hostReadTarget_obuf (hb : s.busy = false) (i : Nat) :
    hostReadTarget s (.obuf i) = hostReadByte s.obuf i s := by
  simp [hostReadTarget, hb]

/-- A read that reaches a register or a byte is answered, and with no bus error. -/
theorem hostReadTarget_answers (s : State) (tgt : Target) :
    ∃ r ≠ .busError, ∀ t, SameBlock s t → hostReadTarget t tgt = t.answer r := by
  by_cases hstatus : tgt = .reg .status
  · subst hstatus
    exact ⟨.word (s.readReg .status), nofun, fun t h => by rw [← h.readReg]; rfl⟩
  cases hb : s.busy with
  | true => exact ⟨.hazard, nofun, fun t h => hostReadTarget_hazard (h.busy.trans hb) hstatus⟩
  | false =>
    cases tgt with
    | reg r =>
      refine ⟨.word (s.readReg r), nofun, fun t h => ?_⟩
      rw [hostReadTarget_reg (h.busy.trans hb), h.readReg]
      rfl
    | ibuf i =>
      obtain ⟨r, hr, hbyte⟩ := hostReadByte_answers s.ibuf i
      exact ⟨r, hr, fun t h => by rw [hostReadTarget_ibuf (h.busy.trans hb), h.ibuf, hbyte]⟩
    | obuf i =>
      obtain ⟨r, hr, hbyte⟩ := hostReadByte_answers s.obuf i
      exact ⟨r, hr, fun t h => by rw [hostReadTarget_obuf (h.busy.trans hb), h.obuf, hbyte]⟩

/-- A read changes only the answers and the marks, and whoever reads the same block gets the same answer (R80). -/
theorem hostRead_answers (s : State) (addr width : Nat) :
    ∃ r, ∀ t, SameBlock s t → hostRead t addr width = t.answer r := by
  cases ho : windowOffset s.cfg addr with
  | none => exact ⟨.noMeaning, fun t h => hostRead_outside width (h.cfg ▸ ho)⟩
  | some off =>
    cases ht : busTarget s.cfg false off width with
    | none => exact ⟨.busError, fun t h => hostRead_refused (h.cfg ▸ ho) (h.cfg ▸ ht)⟩
    | some tgt =>
      obtain ⟨r, _, hr⟩ := hostReadTarget_answers s tgt
      exact ⟨r, fun t h => (hostRead_reached (h.cfg ▸ ho) (h.cfg ▸ ht)).trans (hr t h)⟩

/-! ### A write is only answered, or it reaches a register or a byte of IBUF while idle -/

theorem hostWrite_answers_or_reaches (s : State) (addr width : Nat) (data : Word) :
    (∃ r, ∀ t, SameBlock s t → hostWrite t addr width data = t.answer r) ∨
    (s.busy = false ∧ width = 32 ∧ ∃ r : Reg, addr = s.cfg.base + r.offsetInWindow) ∨
    (s.busy = false ∧ width = 8 ∧ ∃ i, i < s.cfg.ibufSize ∧ 0x1000 + i < 0x4000 ∧
      addr = s.cfg.base + (0x1000 + i)) := by
  cases ho : windowOffset s.cfg addr with
  | none => exact .inl ⟨.noMeaning, fun t h => hostWrite_outside width data (h.cfg ▸ ho)⟩
  | some off =>
    cases ht : busTarget s.cfg true off width with
    | none => exact .inl ⟨.busError, fun t h => hostWrite_refused (h.cfg ▸ ho) (h.cfg ▸ ht)⟩
    | some tgt =>
      cases hb : s.busy with
      | true =>
        exact .inl ⟨.hazard, fun t h =>
          (hostWrite_reached (h.cfg ▸ ho) (h.cfg ▸ ht)).trans (if_pos (h.busy.trans hb))⟩
      | false =>
        obtain ⟨rfl, hwin⟩ := windowOffset_eq_some ho
        rcases busTarget_eq_some ht with ⟨r, _, hw, rfl⟩ | ⟨i, _, hw, rfl, hi⟩ | ⟨_, _, _, hread, _⟩
        · exact .inr (.inl ⟨rfl, hw, r, rfl⟩)
        · exact .inr (.inr ⟨rfl, hw, i, hi, hwin, rfl⟩)
        · cases hread

/-- A write that reaches a register or a byte is answered, and with no bus error: none reaches OBUF. -/
theorem hostWriteTarget_ne_busError {off width : Nat} {tgt : Target}
    (ht : busTarget s.cfg true off width = some tgt) (data : Word) :
    (hostWriteTarget s data tgt).responses.head? ≠ some .busError := by
  unfold hostWriteTarget
  split
  · simp [hostHazard]
  · rcases busTarget_eq_some ht with ⟨r, rfl, _⟩ | ⟨i, rfl, _⟩ | ⟨_, _, _, hread, _⟩
    · simp
    · simp
    · cases hread

/-! ### A move that is only answered is answered the same when it comes again -/

theorem hostMove_again_of_answers {m : HostMove} {r : Response}
    (h : ∀ t, SameBlock s t → hostMove t m = t.answer r) :
    hostMove s m = s.answer r ∧ hostMove (hostMove s m) m = (s.answer r).answer r := by
  have hmove : hostMove s m = s.answer r := h s (.refl s)
  exact ⟨hmove, by rw [hmove]; exact h _ (sameBlock_answer s r)⟩

/-! ### Accesses at an offset of the window -/

theorem hostMove_access_refused {isWrite : Bool} {off width : Nat} (data : Word) (hwin : off < 0x4000)
    (ht : busTarget s.cfg isWrite off width = none) :
    hostMove s (accessMove s.cfg isWrite off width data) = hostBusError s := by
  have ho := windowOffset_of_offset s.cfg hwin
  cases isWrite with
  | true => exact hostWrite_refused ho ht
  | false => exact hostRead_refused ho ht

theorem hostMove_access_ne_busError {isWrite : Bool} {off width : Nat} {tgt : Target} (data : Word)
    (hwin : off < 0x4000) (ht : busTarget s.cfg isWrite off width = some tgt) :
    (hostMove s (accessMove s.cfg isWrite off width data)).responses.head? ≠ some .busError := by
  have ho := windowOffset_of_offset s.cfg hwin
  cases isWrite with
  | true =>
    have hmove : hostMove s (accessMove s.cfg true off width data) = hostWriteTarget s data tgt :=
      hostWrite_reached ho ht
    rw [hmove]
    exact hostWriteTarget_ne_busError ht data
  | false =>
    obtain ⟨r, hr, hread⟩ := hostReadTarget_answers s tgt
    have hmove : hostMove s (accessMove s.cfg false off width data) = s.answer r :=
      (hostRead_reached ho ht).trans (hread s (.refl s))
    simp [hmove, hr]

/-! ### Writes of registers -/

theorem hostWriteReg_readOnly {r : Reg} (hr : r.hostWritable = false) (w : Word) : hostWriteReg s r w = s := by
  have hne : r ≠ .cmd := by rintro rfl; cases hr
  rw [hostWriteReg, if_neg hne, hr]
  rfl

/-- A write of one of the five read-only registers, given by its offset, is only answered (R74). -/
theorem hostMove_write_readOnly (hb : s.busy = false) {off : Nat} (hoff : off ∈ [0x004, 0x008, 0x010, 0x020, 0x024])
    (w : Word) : hostMove s (.write (s.cfg.base + off) 32 w) = s.respond .done := by
  have hreg : ∃ r : Reg, r.hostWritable = false ∧ off = r.offsetInWindow := by
    simp only [List.mem_cons, List.not_mem_nil, or_false] at hoff
    rcases hoff with rfl | rfl | rfl | rfl | rfl
    exacts [⟨.status, rfl, rfl⟩, ⟨.errinfo, rfl, rfl⟩, ⟨.outlen, rfl, rfl⟩, ⟨.offset, rfl, rfl⟩, ⟨.code, rfl, rfl⟩]
  obtain ⟨r, hr, rfl⟩ := hreg
  rw [hostMove_write_reg s r w hb, hostWriteReg_readOnly hr]

theorem writeReg_ctrLo (s : State) (w : Word) : s.writeReg .ctrLo w = { s with ctrLo := w } := by
  simp only [State.writeReg, Reg.mask, and_allOnes]

theorem writeReg_ctrHi (s : State) (w : Word) : s.writeReg .ctrHi w = { s with ctrHi := w } := by
  simp only [State.writeReg, Reg.mask, and_allOnes]

/-- Writing a register again, CMD included, stores what it holds already. -/
theorem hostWriteReg_again (s : State) (r : Reg) (w : Word) (a : Response) :
    hostWriteReg ((hostWriteReg s r w).respond a) r w = (hostWriteReg s r w).respond a := by
  cases r <;> rfl

theorem hostWriteReg_busy {r : Reg} (hr : r ≠ .cmd) (w : Word) : (hostWriteReg s r w).busy = s.busy := by
  have hstatus : (hostWriteReg s r w).status = s.status := by
    by_contra h
    exact hr (hostWriteReg_status h).1
  rw [State.busy, hstatus]
  rfl

theorem hostWriteReg_cfg (s : State) (r : Reg) (w : Word) : (hostWriteReg s r w).cfg = s.cfg := by
  cases r <;> rfl

/-- R32 to R41: the offset of each register and what a read of it returns. -/
theorem registerMap_eq (s : State) :
    [Reg.cmd, .status, .errinfo, .inlen, .outlen, .ctrLo, .ctrHi, .value, .offset, .code].map
      (fun r => (r.offsetInWindow, s.readReg r)) =
    [(0x000, s.cmd), (0x004, s.status &&& 0x7), (0x008, s.errinfo &&& 0xFFFFFF0F), (0x00C, s.inlen &&& 0xFFFF),
      (0x010, s.outlen &&& 0xFFFF), (0x014, s.ctrLo), (0x018, s.ctrHi), (0x01C, s.value &&& 0x7FFFFFFF),
      (0x020, s.offset &&& 0xF), (0x024, s.code &&& 0x07FFFFFF)] := by
  simp only [List.map, Reg.offsetInWindow, State.readReg, State.stored, Reg.mask, and_allOnes]

/-- A write that reaches any register but CMD can be repeated: the second stores what the first stored. -/
theorem hostMove_write_reg_again (hb : s.busy = false) {r : Reg} (hr : r ≠ .cmd) (w : Word) :
    hostMove ((hostWriteReg s r w).respond .done) (.write (s.cfg.base + r.offsetInWindow) 32 w) =
      ((hostWriteReg s r w).respond .done).respond .done := by
  have hbusy : ((hostWriteReg s r w).respond .done).busy = false := (hostWriteReg_busy hr w).trans hb
  rw [← hostWriteReg_cfg s r w, ← State.respond_cfg _ .done, hostMove_write_reg _ r w hbusy, hostWriteReg_again]

/-! ### Writes of IBUF -/

/-- IBUF holds the byte `b` at index `i`, and nothing else changes: what a byte write stores (R72). -/
def State.storeIbuf (s : State) (i : Nat) (b : Byte) : State := { s with ibuf := s.ibuf.write i b }

theorem storeIbuf_again (s : State) (i : Nat) (b : Byte) (a : Response) :
    ((s.storeIbuf i b).respond a).storeIbuf i b = (s.storeIbuf i b).respond a :=
  congrArg (fun m => { (s.storeIbuf i b).respond a with ibuf := m }) (Memory.write_write s.ibuf i b)

/-- A write that reaches a byte of IBUF can be repeated, too. -/
theorem hostMove_write_ibuf_again (hb : s.busy = false) {i : Nat} (hi : i < s.cfg.ibufSize) (hwin : 0x1000 + i < 0x4000)
    (data : Word) :
    hostMove ((s.storeIbuf i (BitVec.ofNat 8 data.toNat)).respond .done) (.write (s.cfg.base + (0x1000 + i)) 8 data) =
      ((s.storeIbuf i (BitVec.ofNat 8 data.toNat)).respond .done).respond .done := by
  have hmove := hostMove_write_ibuf (s := (s.storeIbuf i (BitVec.ofNat 8 data.toNat)).respond .done) hb hi hwin data
  exact hmove.trans (congrArg (State.respond · .done) (storeIbuf_again s i _ .done))

end

/-! ### The obligations -/

/-- Settles O33: the address decoding refuses exactly R73's list, and an access it does not refuse is answered
otherwise. -/
theorem busErrors : Obligations.BusErrors := by
  intro s isWrite off width data hwf hwin
  rw [← busTarget_eq_none_iff s.cfg isWrite off width hwf hwin]
  refine ⟨hostMove_access_refused data hwin, fun hne => ?_⟩
  obtain ⟨tgt, ht⟩ := Option.ne_none_iff_exists'.1 hne
  exact hostMove_access_ne_busError data hwin ht

/-- Settles O35: a read returns `readReg` and a write does `hostWriteReg`, register by register. -/
theorem registerAccesses : Obligations.RegisterAccesses := by
  intro s hb
  refine ⟨fun p hp => ?_, fun w => ?_⟩
  · rw [← registerMap_eq] at hp
    obtain ⟨r, _, rfl⟩ := List.mem_map.1 hp
    exact hostMove_read_reg s r hb
  · have hwrite := fun r => hostMove_write_reg s r w hb
    exact ⟨congrArg State.cmd (hwrite .cmd), fun off hoff => hostMove_write_readOnly hb hoff w,
      (hwrite .ctrLo).trans (congrArg (State.respond · .done) (writeReg_ctrLo s w)),
      (hwrite .ctrHi).trans (congrArg (State.respond · .done) (writeReg_ctrHi s w)), hwrite .inlen, hwrite .value⟩

/-- Settles O36: masking a word with 2^k - 1 keeps its bits k-1:0. -/
theorem readOnlyAndHardwiredWrites : Obligations.ReadOnlyAndHardwiredWrites := by
  intro s w hb
  rw [← and_eq_ofNat_mod w 16 (by decide), ← and_eq_ofNat_mod w 31 (by decide)]
  exact ⟨fun off hoff => hostMove_write_readOnly hb hoff w, hostMove_write_reg s .inlen w hb,
    hostMove_write_reg s .value w hb⟩

/-- Settles O38: an access that is only answered is answered the same from the state it leaves, and a store repeated
writes the value that is there. -/
theorem readsPureWritesIdempotent : Obligations.ReadsPureWritesIdempotent := by
  intro s
  refine ⟨fun addr width => ?_, fun addr width data haddr => ?_⟩
  · obtain ⟨r, hr⟩ := hostRead_answers s addr width
    obtain ⟨hread, hagain⟩ := hostMove_again_of_answers (m := .read addr width) hr
    refine ⟨(s.answer r).faults, r, (s.answer r).refusal, hread.trans (s.answer_eq r), ?_⟩
    rw [hagain, State.answer_answer, State.answer_responses]
    exact congrArg (fun t => { t with responses := r :: r :: s.responses }) (s.answer_eq r)
  · rcases hostWrite_answers_or_reaches s addr width data with
      ⟨r, hr⟩ | ⟨hb, rfl, r, rfl⟩ | ⟨hb, rfl, i, hi, hwin, rfl⟩
    · obtain ⟨hwrite, hagain⟩ := hostMove_again_of_answers (m := .write addr width data) hr
      rw [hagain, hwrite]
      exact ⟨.inl ⟨_, r, _, s.answer_eq r⟩, r, s.answer_answer r⟩
    · have hne : r ≠ .cmd := by rintro rfl; exact haddr rfl
      rw [hostMove_write_reg s r data hb]
      refine ⟨?_, .done, hostMove_write_reg_again hb hne data⟩
      rcases hostWriteReg_cases s r data with ⟨hcmd, _⟩ | ⟨hstored, hc⟩ | hc
      · exact absurd hcmd hne
      · rw [hc]
        refine .inr ?_
        rcases hstored with rfl | rfl | rfl | rfl
        · exact .inl ⟨rfl, rfl⟩
        · exact .inr (.inl ⟨rfl, by rw [writeReg_ctrLo]; rfl⟩)
        · exact .inr (.inr (.inl ⟨rfl, by rw [writeReg_ctrHi]; rfl⟩))
        · exact .inr (.inr (.inr (.inl ⟨rfl, rfl⟩)))
      · rw [hc]
        exact .inl ⟨s.faults, .done, s.refusal, rfl⟩
    · rw [hostMove_write_ibuf hb hi hwin data]
      exact ⟨.inr (.inr (.inr (.inr (.inr ⟨i, _, hi, rfl, rfl, Memory.read_write _ _ _⟩)))), .done,
        hostMove_write_ibuf_again hb hi hwin data⟩

end Sys2Proof.Machine

/-! SUPPORT. Decoding as an equivalence with encoding (O1, O2, O4), by way of the fields R105 gives each command, and
the assembler's words as encodings of commands (O5). -/

namespace Sys2Proof

open Machine

section
variable {w : Word} {i : Instr}

/-! ### The fields of a command's word -/

/-- OP of a command's word (R106). -/
@[simp] def Instr.opcode : Instr → Nat
  | .b32enc => 1
  | .b32dec => 2
  | .hotpmsg => 3
  | .hotptrunc _ => 4
  | .hotpfold _ => 5
  | .hotpcode _ _ => 6

/-- DIGITS of a command's word, 0 where the command has no digit count (R105). -/
@[simp] def Instr.digitsField : Instr → Nat
  | .hotpfold d | .hotpcode _ d => d
  | .b32enc | .b32dec | .hotpmsg | .hotptrunc _ => 0

/-- ALG of a command's word, 0 where the command has no algorithm (R105). -/
@[simp] def Instr.algField : Instr → Nat
  | .hotptrunc a | .hotpcode a _ => (fieldOfAlg a).toNat
  | .b32enc | .b32dec | .hotpmsg | .hotpfold _ => 0

theorem fieldOp_lt (w : Word) : fieldOp w < 256 := (w.extractLsb' 0 8).isLt

theorem opcode_bounds (i : Instr) : 0 < i.opcode ∧ i.opcode < 7 := by
  cases i <;> simp

theorem algField_lt (i : Instr) : i.algField < 4 := by
  cases i with
  | hotptrunc a | hotpcode a _ => exact (fieldOfAlg a).isLt
  | _ => exact Nat.zero_lt_succ _

theorem wf_iff_digitsField_lt (i : Instr) : i.wf = true ↔ i.digitsField < 16 := by
  cases i <;> simp [Instr.wf, digitsEncodable]

/-- The word of a well-formed command is the sum of its fields. -/
theorem encode_toNat (h : i.wf = true) :
    (encode i).toNat = i.opcode + i.digitsField * 2 ^ 8 + i.algField * 2 ^ 12 := by
  have hd : i.digitsField % 16 = i.digitsField := Nat.mod_eq_of_lt ((wf_iff_digitsField_lt i).1 h)
  cases i <;> simp_all [encode, cmd32_toNat]

/-- A word encodes a well-formed command exactly if its fields are the command's. -/
theorem eq_encode_iff_fields :
    i.wf = true ∧ encode i = w ↔
      fieldRsv w = 0 ∧ fieldOp w = i.opcode ∧ fieldDigits w = i.digitsField ∧ fieldAlg w = i.algField := by
  have hw := word_eq_fields w
  have hop := fieldOp_lt w
  have hdw := fieldDigits_lt w
  have haw := fieldAlg_lt w
  have ⟨_, ho⟩ := opcode_bounds i
  have ha := algField_lt i
  constructor
  · rintro ⟨hwf, rfl⟩
    have hd := (wf_iff_digitsField_lt i).1 hwf
    rw [encode_toNat hwf] at hw
    omega
  · rintro ⟨hrsv, hop', hd, ha'⟩
    have hwf := (wf_iff_digitsField_lt i).2 (hd ▸ hdw)
    refine ⟨hwf, BitVec.eq_of_toNat_eq ?_⟩
    rw [encode_toNat hwf]
    omega

/-! ### Decoding reads the four fields -/

@[simp] theorem ite_illegal_eq_cmd_iff {p : Prop} [Decidable p] {x : Decoded} :
    (if p then x else .illegal) = .cmd i ↔ p ∧ x = .cmd i := by
  split <;> simp [*]

theorem algOfField_eq_some_iff {n : Nat} {a : Alg} : algOfField n = some a ↔ n = (fieldOfAlg a).toNat := by
  constructor
  · intro h
    unfold algOfField at h
    split at h <;> cases h <;> rfl
  · rintro rfl
    cases a <;> rfl

theorem decodeTrunc_eq_cmd_iff {a : Alg} :
    decodeTrunc w = .cmd (.hotptrunc a) ↔ fieldDigits w = 0 ∧ fieldAlg w = (fieldOfAlg a).toNat := by
  rw [← algOfField_eq_some_iff]
  unfold decodeTrunc
  cases algOfField (fieldAlg w) <;> simp

theorem decodeCode_eq_cmd_iff {a : Alg} {d : Nat} :
    decodeCode w = .cmd (.hotpcode a d) ↔ fieldDigits w = d ∧ fieldAlg w = (fieldOfAlg a).toNat := by
  rw [← algOfField_eq_some_iff]
  unfold decodeCode
  cases algOfField (fieldAlg w) <;> simp [and_comm]

theorem fieldOp_of_decode (h : decode w = .cmd i) : fieldOp w = i.opcode := by
  have hf := decode_fields h
  cases i with
  | b32enc | b32dec | hotpmsg => exact hf
  | hotptrunc | hotpfold | hotpcode => exact hf.1

/-- R110 as R105's table. At the command's own opcode only its branch of the decoder is left, with the conditions on the
other fields; at another opcode neither side holds. -/
theorem decode_eq_cmd_iff_fields :
    decode w = .cmd i ↔
      fieldRsv w = 0 ∧ fieldOp w = i.opcode ∧ fieldDigits w = i.digitsField ∧ fieldAlg w = i.algField := by
  by_cases hop : fieldOp w = i.opcode
  · cases i <;> simp_all [decode, decodeTrunc_eq_cmd_iff, decodeCode_eq_cmd_iff, and_comm]
  · exact ⟨fun h => absurd (fieldOp_of_decode h) hop, fun h => absurd h.2.1 hop⟩

/-- The decoder inverts the encoder, and decodes nothing else. -/
theorem decode_eq_cmd_iff : decode w = .cmd i ↔ i.wf = true ∧ encode i = w :=
  decode_eq_cmd_iff_fields.trans eq_encode_iff_fields.symm

end

end Sys2Proof

namespace Sys2Proof.Machine

section
variable {l : AsmLine} {i : Instr}

/-! ### The assembler encodes the command a line names -/

/-- The command a line of R112 names, its omitted operands filled in; none where an operand is refused. -/
def AsmLine.command : AsmLine → Option Instr
  | .b32enc => some .b32enc
  | .b32dec => some .b32dec
  | .hotpmsg => some .hotpmsg
  | .hotptrunc n => (asmAlg n).map .hotptrunc
  | .hotpfold d => (asmDigits d).map .hotpfold
  | .hotpcode n d => (asmAlg n).bind fun a => (asmDigits d).map (.hotpcode a)

/-- R112's way to put a word together, by shifts, gives R100's fields. -/
theorem or_shifted_fields_eq_cmd32 (a : BitVec 2) {d : Nat} (hd : d < 16) (o : BitVec 8) :
    o.setWidth 32 ||| (a.setWidth 32 <<< 12) ||| (BitVec.ofNat 32 d <<< 8) = cmd32 a (BitVec.ofNat 4 d) o := by
  rw [← BitVec.setWidth_ofNat_of_le_of_lt (w := 4) (by decide) hd]
  ext j hj
  grind [cmd32]

theorem asmDigits_some_of_le {d : Nat} (h : d ≤ 15) : asmDigits (some d) = some d :=
  if_pos (decide_eq_true (Nat.lt_succ_of_le h))

theorem asmDigits_some_of_gt {d : Nat} (h : 15 < d) : asmDigits (some d) = none :=
  if_neg (by simp only [digitsEncodable, decide_eq_true_eq]; omega)

theorem lt_of_asmDigits {o : Option Nat} {d : Nat} (h : asmDigits o = some d) : d < 16 := by
  cases o with
  | none => cases h; decide
  | some e =>
    by_cases he : e ≤ 15
    · rw [asmDigits_some_of_le he] at h
      cases h
      omega
    · rw [asmDigits_some_of_gt (by omega)] at h
      cases h

theorem asmAlg_other {n : List Byte} (h1 : n ≠ nameSha1) (h256 : n ≠ nameSha256) (h512 : n ≠ nameSha512) :
    asmAlg (some n) = none := by
  simp [asmAlg, h1, h256, h512]

/-- The names of R112 and the numbers it gives them. -/
theorem asmAlg_named {n : Option (List Byte)} {k : Nat}
    (h : ((n = none ∨ n = some nameSha1) ∧ k = 0) ∨ (n = some nameSha256 ∧ k = 1) ∨
      (n = some nameSha512 ∧ k = 2)) :
    ∃ a, asmAlg n = some a ∧ (fieldOfAlg a).toNat = k := by
  obtain ⟨rfl | rfl, rfl⟩ | ⟨rfl, rfl⟩ | ⟨rfl, rfl⟩ := h
  · exact ⟨.sha1, rfl, rfl⟩
  · exact ⟨.sha1, rfl, rfl⟩
  · exact ⟨.sha256, rfl, rfl⟩
  · exact ⟨.sha512, rfl, rfl⟩

theorem wf_of_command (h : l.command = some i) : i.wf = true := by
  cases l with
  | b32enc | b32dec | hotpmsg => cases h; rfl
  | hotptrunc n =>
    obtain ⟨a, -, rfl⟩ := Option.map_eq_some_iff.1 h
    rfl
  | hotpfold d =>
    obtain ⟨d, hd, rfl⟩ := Option.map_eq_some_iff.1 h
    exact decide_eq_true (lt_of_asmDigits hd)
  | hotpcode n d =>
    obtain ⟨a, -, h⟩ := Option.bind_eq_some_iff.1 h
    obtain ⟨d, hd, rfl⟩ := Option.map_eq_some_iff.1 h
    exact decide_eq_true (lt_of_asmDigits hd)

/-- Assembling a line is encoding its command. -/
theorem assemble_eq_encode (l : AsmLine) : assemble l = l.command.map encode := by
  cases l with
  | b32enc | b32dec | hotpmsg => rfl
  | hotptrunc n =>
    cases hn : asmAlg n with
    | none => simp [assemble, AsmLine.command, hn]
    | some a =>
      have hword := or_shifted_fields_eq_cmd32 (fieldOfAlg a) (d := 0) (by decide) 0x04
      simpa [assemble, AsmLine.command, hn, encode] using hword
  | hotpfold d =>
    cases hd : asmDigits d with
    | none => simp [assemble, AsmLine.command, hd]
    | some d =>
      have hword := or_shifted_fields_eq_cmd32 0 (lt_of_asmDigits hd) 0x05
      simpa [assemble, AsmLine.command, hd, encode] using hword
  | hotpcode n d =>
    cases hn : asmAlg n with
    | none => simp [assemble, AsmLine.command, hn]
    | some a =>
      cases hd : asmDigits d with
      | none => simp [assemble, AsmLine.command, hn, hd]
      | some d =>
        have hword := or_shifted_fields_eq_cmd32 (fieldOfAlg a) (lt_of_asmDigits hd) 0x06
        simpa [assemble, AsmLine.command, hn, hd, encode] using hword

/-- A line that is not refused assembles to the sum of its command's fields. -/
theorem assemble_of_command {k : Nat} (h : l.command = some i)
    (hk : i.opcode + i.algField * 2 ^ 12 + i.digitsField * 2 ^ 8 = k) : assemble l = some (BitVec.ofNat 32 k) := by
  rw [assemble_eq_encode, h, Option.map_some, ← hk, Nat.add_right_comm, ← encode_toNat (wf_of_command h),
    BitVec.ofNat_toNat, BitVec.setWidth_eq]

theorem assemble_of_refused (h : l.command = none) : assemble l = none := by
  rw [assemble_eq_encode, h, Option.map_none]

end

/-! ### The obligations -/

/-- Settles O1: the encoding of a well-formed command decodes to it, since the decoder inverts the encoder. -/
theorem decodeOfEncode : Obligations.DecodeOfEncode := fun _ h => decode_eq_cmd_iff.2 ⟨h, rfl⟩

/-- Settles O2: the same equivalence, read from the word. -/
theorem encodeOfDecode : Obligations.EncodeOfDecode := fun _ _ h => decode_eq_cmd_iff.1 h

/-- Settles O5: each line names a command or is refused by one of its operands, and the words are the commands'. -/
theorem assemblerWords : Obligations.AssemblerWords := by
  refine ⟨fun _ _ => rfl, rfl, rfl, rfl, fun n k h => ?_, rfl, fun d hd => ?_, fun d hd => ⟨?_, fun n => ?_⟩,
    fun n h1 h256 h512 => ⟨?_, fun d => ?_⟩⟩
  · obtain ⟨a, ha, rfl⟩ := asmAlg_named h
    have hcode {o : Option Nat} {d : Nat} (hd : asmDigits o = some d) :
        (AsmLine.hotpcode n o).command = some (.hotpcode a d) := by simp [AsmLine.command, ha, hd]
    exact ⟨assemble_of_command (i := .hotptrunc a) (by simp [AsmLine.command, ha]) (by simp),
      assemble_of_command (hcode rfl) (by simp),
      fun d hd => assemble_of_command (hcode (asmDigits_some_of_le hd)) rfl⟩
  · exact assemble_of_command (i := .hotpfold d) (by simp [AsmLine.command, asmDigits_some_of_le hd]) (by simp)
  · exact assemble_of_refused (by simp [AsmLine.command, asmDigits_some_of_gt hd])
  · exact assemble_of_refused (by simp [AsmLine.command, asmDigits_some_of_gt hd])
  · exact assemble_of_refused (by simp [AsmLine.command, asmAlg_other h1 h256 h512])
  · exact assemble_of_refused (by simp [AsmLine.command, asmAlg_other h1 h256 h512])

/-- Settles O4: each default word is the encoding of its command, and a decoded word's opcode is a command's. -/
theorem opcodeMapWords : Obligations.OpcodeMapWords := by
  refine ⟨decode_eq_cmd_iff.2 (by decide), decode_eq_cmd_iff.2 (by decide), decode_eq_cmd_iff.2 (by decide),
    decode_eq_cmd_iff.2 (by decide), decode_eq_cmd_iff.2 (by decide), decode_eq_cmd_iff.2 (by decide),
    fun w hop => ?_⟩
  cases h : decode w with
  | illegal => rfl
  | cmd i =>
    have ⟨_, _⟩ := opcode_bounds i
    have := fieldOp_of_decode h
    omega

end Sys2Proof.Machine

/-! SUPPORT. The Base32 alphabet in both directions (O9), and the codec in the block: what B32ENC and B32DEC leave in
the state (O10, O11), and that the second undoes the first (O13). -/

namespace Sys2Proof.Machine

section
variable {s : State} {n p v : Nat} {b c : Nat → Byte}

/-! ### The alphabet -/

theorem enc32_of_le (h : v ≤ 25) : enc32 v = BitVec.ofNat 8 (0x41 + v) := if_pos h

theorem enc32_of_gt (h : 25 < v) : enc32 v = BitVec.ofNat 8 (0x32 + (v - 26)) := if_neg (by omega)

/-- A byte with a value is the character of that value, or the pad. -/
theorem eq_enc32_of_val32 {x : Byte} (h : val32 x = some v) : x = enc32 v ∨ (v = 0 ∧ x = padChar) := by
  unfold val32 at h
  split at h
  case isTrue hletter =>
    cases h
    rw [enc32_of_le (by omega)]
    exact .inl (BitVec.eq_of_toNat_eq (by rw [BitVec.toNat_ofNat]; omega))
  case isFalse =>
    split at h
    case isTrue hdigit =>
      cases h
      rw [enc32_of_gt (by omega)]
      exact .inl (BitVec.eq_of_toNat_eq (by rw [BitVec.toNat_ofNat]; omega))
    case isFalse =>
      split at h
      case isTrue hpad =>
        cases h
        exact .inr ⟨rfl, BitVec.eq_of_toNat_eq hpad⟩
      case isFalse => cases h

/-! ### What a success with output leaves in the state -/

/-- OUTLEN has 16 bits (R37), so it holds the length of any output that fits OBUF (R8). -/
theorem commitOutput_completeSuccess (hc : s.cfg.wf = true) {out : List Byte} (hl : out.length ≤ s.cfg.obufSize) :
    (s.commitOutput out).completeSuccess =
      { s with status := 0x2, outlen := BitVec.ofNat 32 out.length, obuf := Memory.ofBytes 0 out } := by
  obtain ⟨_, _, _, hsize⟩ := (Config.wf_iff _).1 hc
  have hmask : BitVec.ofNat 32 out.length &&& Reg.mask .outlen = BitVec.ofNat 32 out.length :=
    ofNat_and_mask out.length 16 (by omega) (by omega)
  simp only [State.completeSuccess, State.commitOutput, State.writeReg, hmask, statusSuccess]

theorem obufHolds_of_ofBytes {t : State} {out : List Byte} (hout : t.obuf = Memory.ofBytes 0 out)
    (hl : out.length = n) (hb : ∀ i, i < n → out[i]? = some (b i)) : obufHolds t n b := by
  refine ⟨fun i hi => ?_, fun i hi => ?_⟩ <;> rw [hout, Memory.read_ofBytes_zero]
  · exact hb i hi
  · exact List.getElem?_eq_none (by omega)

theorem obufHolds_congr {t : State} (h : obufHolds t n b) (hbc : ∀ i, i < n → b i = c i) : obufHolds t n c :=
  ⟨fun i hi => (h.1 i hi).trans (by rw [hbc i hi]), h.2⟩

/-- The one way B32ENC and B32DEC succeed, in the words of R213 and R44. -/
theorem commitOutput_completes {x : Host.Outcome State Fault Refusal} {out : List Byte}
    (hx : x = .next (s.commitOutput out).completeSuccess) (hc : s.cfg.wf = true)
    (hl : out.length = n) (hsize : out.length ≤ s.cfg.obufSize) (hb : ∀ i, i < n → out[i]? = some (b i)) :
    ∃ t, x = .next t ∧ t = { s with status := 0x2, outlen := BitVec.ofNat 32 n, obuf := t.obuf } ∧
      obufHolds t n b :=
  ⟨_, hx, hl ▸ commitOutput_completeSuccess hc hsize, obufHolds_of_ofBytes rfl hl hb⟩

/-! ### The commands on written input -/

theorem execB32enc_of_holds (hn : inlenOf s ≤ s.cfg.ibufSize) (hb : ibufHolds s (inlenOf s) b) :
    exec .b32enc s =
      .next (s.commitOutput (base32Encode ((List.range (inlenOf s)).map b))).completeSuccess := by
  rcases execB32enc_cases s with ⟨hlong, _⟩ | ⟨_, hm, _⟩ | ⟨_, bs, hbs, hx⟩
  · omega
  · exact absurd (inputIs_of_holds hb) (inputMissing_not_inputIs hm)
  · rw [hx, inputIs_unique hbs (inputIs_of_holds hb)]

theorem execB32dec_of_holds (hn : inlenOf s ≤ s.cfg.ibufSize) (h8 : inlenOf s % 8 = 0)
    (hb : ibufHolds s (inlenOf s) c) (hv : ∀ i, i < inlenOf s → val32 (c i) ≠ none) :
    exec .b32dec s =
      .next (s.commitOutput (base32Decode ((List.range (inlenOf s)).map c))).completeSuccess := by
  rcases execB32dec_cases s with ⟨hlong, _⟩ | ⟨_, hbad, _⟩ | ⟨_, _, hm, _⟩ | ⟨_, _, cs, hcs, hx⟩
  · omega
  · exact absurd h8 hbad
  · exact absurd (inputIs_of_holds hb) (inputMissing_not_inputIs hm)
  · have hvalid : firstInvalid 0 ((List.range (inlenOf s)).map c) = none := firstInvalid_none.2 (by simpa using hv)
    rw [inputIs_unique hcs (inputIs_of_holds hb)] at hx
    rcases hx with ⟨e, he, _⟩ | ⟨_, hx⟩
    · rw [hvalid] at he; cases he
    · exact hx

theorem execB32enc_encodes (hc : s.cfg.wf = true) (hn : inlenOf s ≤ s.cfg.ibufSize)
    (hb : ibufHolds s (inlenOf s) b) :
    ∃ t, exec .b32enc s = .next t ∧
      t = { s with status := 0x2, outlen := BitVec.ofNat 32 (8 * ((inlenOf s + 4) / 5)), obuf := t.obuf } ∧
      obufHolds t (8 * ((inlenOf s + 4) / 5)) (encodedChar (inlenOf s) b) :=
  commitOutput_completes (execB32enc_of_holds hn hb) hc (by rw [length_base32Encode]; simp)
    (length_base32Encode_le hc (by simpa using hn)) fun _ hi => getElem?_base32Encode _ _ hi

/-- B32DEC on a valid text, with the dropped bytes as the model counts them. -/
theorem execB32dec_decodes {v : Nat → Nat} (hc : s.cfg.wf = true) (hn : inlenOf s ≤ s.cfg.ibufSize)
    (h8 : inlenOf s % 8 = 0) (hb : ibufHolds s (inlenOf s) c) (hv : ∀ i, i < inlenOf s → val32 (c i) = some (v i))
    {len : Nat} (hlen : len = 5 * (inlenOf s / 8) - droppedBytes ((List.range (inlenOf s)).map c)) :
    ∃ t, exec .b32dec s = .next t ∧
      t = { s with status := 0x2, outlen := BitVec.ofNat 32 len, obuf := t.obuf } ∧ obufHolds t len (decodedByte v) :=
  commitOutput_completes (execB32dec_of_holds hn h8 hb fun i hi => by simp [hv i hi]) hc
    (by rw [length_base32Decode, hlen]; simp) (length_base32Decode_le hc (by simpa using hn))
    fun _ hi => getElem?_base32Decode _ _ _ hv (hlen ▸ hi)

/-! ### Dropped bytes (R136) -/

theorem dropCount_of_notMem (h : p ∉ [1, 3, 4, 6]) : dropCount p = 0 := by
  unfold dropCount
  split <;> simp at h ⊢

theorem droppedBytes_of_trailingPads (hn : 8 ≤ n) (h : trailingPads n c p) :
    droppedBytes ((List.range n).map c) = dropCount p := by
  have hne : ((List.range n).map c).length / 8 ≠ 0 := by simp; omega
  rw [droppedBytes, if_neg hne, trailPads_of_fn hn h]

/-! ### The text B32ENC writes -/

theorem encodedChar_pad {k j : Nat} (hj : j < 8) (h : realOfBlock (min 5 (n - 5 * k)) ≤ j) :
    encodedChar n b (8 * k + j) = padChar := by
  have hk : (8 * k + j) / 8 = k := by omega
  have hl : (8 * k + j) % 8 = j := by omega
  rw [encodedChar, hk, hl, if_neg (by omega)]
  rfl

theorem encodedChar_ne_pad {k j : Nat} (hj : j < 8) (h : j < realOfBlock (min 5 (n - 5 * k))) :
    encodedChar n b (8 * k + j) ≠ padChar := by
  have hk : (8 * k + j) / 8 = k := by omega
  have hl : (8 * k + j) % 8 = j := by omega
  rw [encodedChar, hk, hl, if_pos h]
  exact enc32_ne_pad (by omega)

/-- R133's table: the lanes that are no real symbol number at most 6, and as pads they drop the bytes the block lacks. -/
theorem realOfBlock_pads {m : Nat} (h1 : 1 ≤ m) (h5 : m ≤ 5) :
    2 ≤ realOfBlock m ∧ realOfBlock m ≤ 8 ∧ dropCount (8 - realOfBlock m) = 5 - m := by
  interval_cases m <;> decide

/-- The trailing pads of an encoded text are those of its last block, of `m` bytes. -/
theorem trailingPads_encodedChar {k m : Nat} (h1 : 1 ≤ m) (h5 : m ≤ 5) :
    trailingPads (8 * k + 8) (encodedChar (5 * k + m) b) (8 - realOfBlock m) := by
  obtain ⟨h2, h8, _⟩ := realOfBlock_pads h1 h5
  have hm : min 5 (5 * k + m - 5 * k) = m := by omega
  have hat : ∀ j, j < 8 → 8 * k + 8 - 1 - j = 8 * k + (7 - j) := by omega
  refine ⟨by omega, fun j hj => ?_, fun _ => ?_⟩
  · rw [hat j (by omega)]
    exact encodedChar_pad (by omega) (by rw [hm]; omega)
  · rw [hat _ (by omega)]
    exact encodedChar_ne_pad (by omega) (by rw [hm]; omega)

/-- The dropped bytes of an encoded text are those its last block lacks. -/
theorem droppedBytes_encodedChar (n : Nat) (b : Nat → Byte) :
    droppedBytes ((List.range (8 * ((n + 4) / 5))).map (encodedChar n b)) = 5 * ((n + 4) / 5) - n := by
  rcases Nat.eq_zero_or_pos n with rfl | hn
  · simp [droppedBytes]
  · obtain ⟨k, m, h1, h5, rfl⟩ : ∃ k m, 1 ≤ m ∧ m ≤ 5 ∧ n = 5 * k + m :=
      ⟨(n - 1) / 5, (n - 1) % 5 + 1, by omega, by omega, by omega⟩
    obtain ⟨_, _, hdrop⟩ := realOfBlock_pads h1 h5
    have hG : (5 * k + m + 4) / 5 = k + 1 := by omega
    rw [hG, Nat.mul_succ, droppedBytes_of_trailingPads (by omega) (trailingPads_encodedChar h1 h5), hdrop]
    omega

/-- The value of each character of an encoded text: its block's lane (R134). -/
def encodedValue (n : Nat) (b : Nat → Byte) (p : Nat) : Nat :=
  blockAcc n b (p / 8) / 2 ^ (35 - 5 * (p % 8)) % 2 ^ 5

/-- The values of an encoded text pack to the blocks they were taken from, so they decode to the bytes encoded. -/
theorem decodedByte_encodedValue {q : Nat} (hq : q < n) : decodedByte (encodedValue n b) q = b q := by
  have hgroup : groupAcc (encodedValue n b) (q / 5) = blockAcc n b (q / 5) :=
    groupAcc_lanes (blockAcc_lt n b (q / 5)) fun j hj => by
      have hk : (8 * (q / 5) + j) / 8 = q / 5 := by omega
      have hl : (8 * (q / 5) + j) % 8 = j := by omega
      rw [encodedValue, hk, hl]
  rw [decodedByte, hgroup, byte_of_blockAcc b hq]

end

/-! ### The obligations -/

/-- Settles O9: `val32` inverts `enc32` on the 32 values, and a byte with a value is that value's character or the pad. -/
theorem alphabetMaps : Obligations.AlphabetMaps := by
  refine ⟨fun _ h => enc32_of_le h, fun _ h _ => enc32_of_gt h, fun _ h => enc32_ne_pad h, fun c v => ⟨fun h => ?_, ?_⟩⟩
  · exact (eq_enc32_of_val32 h).imp_left fun hc => ⟨val32_le h, hc⟩
  · rintro (⟨hv, rfl⟩ | ⟨rfl, rfl⟩)
    · exact val32_enc32 hv
    · exact val32_pad

/-- Settles O10: of B32ENC's cases only success is left, and it commits the encoding of the bytes IBUF holds. -/
theorem b32encEncodes : Obligations.B32encEncodes := fun _ _ hc hn hb => execB32enc_encodes hc hn hb

/-- Settles O11: each count of trailing pads gives the length the model leaves after dropping bytes. -/
theorem b32decDecodes : Obligations.B32decDecodes := by
  intro s c v p len hc hn h8 hb hv hlen
  refine execB32dec_decodes hc hn h8 hb hv ?_
  rcases hlen with ⟨h0, rfl⟩ | ⟨h0, hp, hlen⟩
  · simp [h0]
  · rw [droppedBytes_of_trailingPads (by omega) hp]
    rcases hlen with ⟨rfl, rfl⟩ | ⟨rfl, rfl⟩ | ⟨rfl, rfl⟩ | ⟨rfl, rfl⟩ | ⟨hnot, rfl⟩
    · rfl
    · rfl
    · rfl
    · rfl
    · rw [dropCount_of_notMem hnot, Nat.sub_zero]

/-- Settles O13: the text has a value at every place, its pads drop what the last block lacks, and its values pack to the
blocks encoded. -/
theorem base32RoundTrip : Obligations.Base32RoundTrip := by
  intro s t s' b hc hcfg hn hb hx hfit hlen hcopy
  obtain ⟨t', hx', _, htext, _⟩ := execB32enc_encodes hc hn hb
  cases hx.symm.trans hx'
  have hinput : ibufHolds s' (inlenOf s') (encodedChar (inlenOf s) b) := fun i hi =>
    (hcopy i hi).trans (htext i (hlen ▸ hi))
  have hvalues : ∀ i, i < inlenOf s' →
      val32 (encodedChar (inlenOf s) b i) = some (encodedValue (inlenOf s) b i) := fun i hi =>
    val32_encodedChar b (hlen ▸ hi)
  have hlength : inlenOf s =
      5 * (inlenOf s' / 8) - droppedBytes ((List.range (inlenOf s')).map (encodedChar (inlenOf s) b)) := by
    rw [hlen, droppedBytes_encodedChar]
    omega
  obtain ⟨u, hu, hstate, hout⟩ :=
    execB32dec_decodes (hcfg ▸ hc) (by rw [hcfg, hlen]; exact hfit) (by omega) hinput hvalues hlength
  exact ⟨u, hu, by rw [hstate], by rw [hstate], obufHolds_congr hout fun _ hq => decodedByte_encodedValue hq⟩

end Sys2Proof.Machine

/-! SUPPORT. What the HOTP commands leave in the state (O14 to O17, O21), that HOTPCODE is HOTPTRUNC then HOTPFOLD (O18),
what a success says of the results (O19, O20), and that a command's result depends on its operands alone (O29). -/

namespace Sys2Proof.Machine

section
variable {s s' t : State} {a : Alg} {d v : Nat} {bs : List Byte}

/-! ### What the HOTP commands commit -/

/-- The commit of the truncation of the digest `bs` (R173). -/
def State.commitDigest (s : State) (bs : List Byte) : State := s.commitTrunc (truncOffset bs) (truncMasked bs)

/-- The success of a fold of `v` to `d` digits (R175). -/
def State.completeFold (s : State) (v d : Nat) : State :=
  ((s.commitCode (foldCode v d)).commitOutput (renderCode (foldCode v d) d)).completeSuccess

/-- OUTLEN has 16 bits (R37). The results of HOTP are short, so R8's constraints on the sizes are not needed here. -/
theorem commitOutput_completeSuccess_of_lt {out : List Byte} (hl : out.length < 2 ^ 16) :
    (s.commitOutput out).completeSuccess =
      { s with status := 0x2, outlen := BitVec.ofNat 32 out.length, obuf := Memory.ofBytes 0 out } := by
  have hmask : BitVec.ofNat 32 out.length &&& Reg.mask .outlen = BitVec.ofNat 32 out.length :=
    ofNat_and_mask out.length 16 (by omega) hl
  simp only [State.completeSuccess, State.commitOutput, State.writeReg, hmask, statusSuccess]

theorem commitDigest_eq (s : State) (bs : List Byte) :
    s.commitDigest bs = { s with offset := BitVec.ofNat 32 (truncOffset bs), value := truncMasked bs } := by
  simp only [State.commitDigest, State.commitTrunc, State.writeReg, Reg.mask, ofNat_offset_mask, truncMasked_mask]

theorem commitCode_eq (s : State) (v : Nat) (hd : d ∈ [6, 7, 8]) :
    s.commitCode (foldCode v d) = { s with code := BitVec.ofNat 32 (foldCode v d) } := by
  simp only [State.commitCode, State.writeReg, Reg.mask, ofNat_code_mask v hd]

theorem completeFold_eq (s : State) (v : Nat) (hd : d ∈ [6, 7, 8]) :
    s.completeFold v d = { s with
      status := 0x2, code := BitVec.ofNat 32 (v % 10 ^ d), outlen := BitVec.ofNat 32 d,
      obuf := (s.completeFold v d).obuf } := by
  have hd8 : d ≤ 8 := by simp at hd; omega
  have hl : (renderCode (foldCode v d) d).length < 2 ^ 16 := by rw [length_renderCode]; omega
  rw [State.completeFold, commitCode_eq s v hd, commitOutput_completeSuccess_of_lt hl, length_renderCode, foldCode]

theorem obufHolds_completeFold (s : State) (v d : Nat) :
    obufHolds (s.completeFold v d) d (codeDigit (v % 10 ^ d) d) :=
  obufHolds_of_ofBytes rfl (length_renderCode _ d) fun _ hi => getElem?_renderCode _ d hi

theorem completeFold_code (s : State) (v : Nat) (hd : d ∈ [6, 7, 8]) : (s.completeFold v d).code.toNat = v % 10 ^ d := by
  have hlt : v % 10 ^ d < 10 ^ 8 := foldCode_lt v hd
  rw [completeFold_eq s v hd, BitVec.toNat_ofNat, Nat.mod_eq_of_lt (by omega)]

/-! ### When each command succeeds, and with what -/

theorem completeError_status_ne (s : State) (e : CmdError) : (s.completeError e).status ≠ 0x2 := by
  rw [State.completeError_status]
  decide

theorem exec_hotpfold (s : State) (hd : d ∈ [6, 7, 8]) :
    exec (.hotpfold d) s = .next (s.completeFold (s.value.toNat % 2 ^ 31) d) := by
  rcases execHotpfold_cases d s with ⟨hbad, _⟩ | ⟨_, hx⟩
  · exact absurd hd hbad
  · exact hx

theorem exec_hotptrunc_of_input (hn : inlenOf s ≤ s.cfg.ibufSize) (hl : inlenOf s = digestLen a)
    (hbs : inputIs s (digestLen a) bs) : exec (.hotptrunc a) s = .next (s.commitDigest bs).completeSuccess := by
  rcases execHotptrunc_cases a s with ⟨hlong, _⟩ | ⟨_, hbad, _⟩ | ⟨_, _, hm, _⟩ | ⟨_, _, cs, hcs, hx⟩
  · omega
  · exact absurd hl hbad
  · exact absurd hbs (inputMissing_not_inputIs hm)
  · rw [hx, inputIs_unique hcs hbs, State.commitDigest]

theorem exec_hotpcode_of_input (hd : d ∈ [6, 7, 8]) (hn : inlenOf s ≤ s.cfg.ibufSize) (hl : inlenOf s = digestLen a)
    (hbs : inputIs s (digestLen a) bs) :
    exec (.hotpcode a d) s = .next ((s.commitDigest bs).completeFold (truncMasked bs).toNat d) := by
  rcases execHotpcode_cases a d s with ⟨hbad, _⟩ | ⟨_, hlong, _⟩ | ⟨_, _, hbad, _⟩ | ⟨_, _, _, hm, _⟩ |
    ⟨_, _, _, cs, hcs, hx⟩
  · exact absurd hd hbad
  · omega
  · exact absurd hl hbad
  · exact absurd hbs (inputMissing_not_inputIs hm)
  · rw [hx, inputIs_unique hcs hbs, State.commitDigest, State.completeFold]

theorem hotpfold_success (hx : exec (.hotpfold d) s = .next t) (ht : t.status = 0x2) :
    d ∈ [6, 7, 8] ∧ t = s.completeFold (s.value.toNat % 2 ^ 31) d := by
  rcases execHotpfold_cases d s with ⟨_, hc⟩ | ⟨hd, hc⟩ <;> rw [hc] at hx <;> cases hx
  · exact absurd ht (completeError_status_ne s _)
  · exact ⟨hd, rfl⟩

theorem hotptrunc_success (hx : exec (.hotptrunc a) s = .next t) (ht : t.status = 0x2) :
    inlenOf s ≤ s.cfg.ibufSize ∧ inlenOf s = digestLen a ∧
      ∃ bs, inputIs s (digestLen a) bs ∧ t = (s.commitDigest bs).completeSuccess := by
  rcases execHotptrunc_cases a s with ⟨_, hc⟩ | ⟨_, _, hc⟩ | ⟨_, _, _, hc⟩ | ⟨hn, hl, bs, hbs, hc⟩ <;>
    rw [hc] at hx <;> cases hx
  · exact absurd ht (completeError_status_ne s _)
  · exact absurd ht (completeError_status_ne s _)
  · exact ⟨hn, hl, bs, hbs, rfl⟩

theorem hotpcode_success (hx : exec (.hotpcode a d) s = .next t) (ht : t.status = 0x2) :
    d ∈ [6, 7, 8] ∧ ∃ bs, t = (s.commitDigest bs).completeFold (truncMasked bs).toNat d := by
  rcases execHotpcode_cases a d s with ⟨_, hc⟩ | ⟨_, _, hc⟩ | ⟨_, _, _, hc⟩ | ⟨_, _, _, _, hc⟩ |
    ⟨hd, _, _, bs, _, hc⟩ <;> rw [hc] at hx <;> cases hx
  · exact absurd ht (completeError_status_ne s _)
  · exact absurd ht (completeError_status_ne s _)
  · exact absurd ht (completeError_status_ne s _)
  · exact ⟨hd, bs, rfl⟩

/-- A success with digits is the success of some fold. -/
theorem success_is_completeFold {i : Instr} (hi : i = .hotpfold d ∨ ∃ a, i = .hotpcode a d) (hx : exec i s = .next t)
    (ht : t.status = 0x2) : d ∈ [6, 7, 8] ∧ ∃ u v, t = State.completeFold u v d := by
  rcases hi with rfl | ⟨a, rfl⟩
  · obtain ⟨hd, rfl⟩ := hotpfold_success hx ht
    exact ⟨hd, _, _, rfl⟩
  · obtain ⟨hd, bs, rfl⟩ := hotpcode_success hx ht
    exact ⟨hd, _, _, rfl⟩

/-! ### Ranges (R177) -/

theorem commitDigest_ranges (s : State) (bs : List Byte) :
    (s.commitDigest bs).offset.toNat ≤ 15 ∧ (s.commitDigest bs).value.toNat ≤ 2 ^ 31 - 1 := by
  have ho : truncOffset bs ≤ 15 := truncOffset_le bs
  rw [commitDigest_eq]
  refine ⟨?_, Nat.le_pred_of_lt (truncMasked_lt bs)⟩
  rw [BitVec.toNat_ofNat]
  omega

/-! ### A command's result depends on its operands alone (R178) -/

/-- The states agree on the input of a command that uses INLEN (R111). -/
structure SameInput (s s' : State) : Prop where
  cfg : s.cfg = s'.cfg
  inlen : s.inlen = s'.inlen
  ibuf : ∀ j, s.ibuf.read j = s'.ibuf.read j

section
variable (hs : SameInput s s')
include hs

theorem SameInput.inputLength : inputLength s = inputLength s' := by
  simp only [inputLength_eq, inlenOf, hs.inlen]

theorem SameInput.inputTooLong : inputTooLong s = inputTooLong s' := by
  simp only [Machine.inputTooLong, hs.cfg, hs.inputLength]

theorem SameInput.inputBytes (n : Nat) : inputBytes s n = inputBytes s' n :=
  Memory.readBytes_congr hs.ibuf 0 n

theorem SameInput.textError : textError s = textError s' := by
  simp only [Machine.textError, hs.inputTooLong, hs.inputLength]

theorem SameInput.digestError (a : Alg) : digestError a s = digestError a s' := by
  simp only [Machine.digestError, hs.inputTooLong, hs.inputLength]

end

/-- How a command ends, apart from the state it ends in: what `Completion` tells of one state, and the stop. -/
inductive Ending : Instr → Type where
  | stop {i : Instr} : Ending i
  | error {i : Instr} (e : CmdError) : Ending i
  | text {i : Instr} (hi : i = .b32enc ∨ i = .b32dec ∨ i = .hotpmsg) (out : List Byte) : Ending i
  | trunc (a : Alg) (bs : List Byte) : Ending (.hotptrunc a)
  | fold (d v : Nat) : Ending (.hotpfold d)
  | code (a : Alg) (d : Nat) (bs : List Byte) : Ending (.hotpcode a d)

/-- The ending, on a state. -/
def Ending.apply {i : Instr} (s : State) : Ending i → Host.Outcome State Fault Refusal
  | .stop => stopUnwritten s
  | .error e => .next (s.completeError e)
  | .text _ out => .next (s.commitOutput out).completeSuccess
  | .trunc _ bs => .next (s.commitDigest bs).completeSuccess
  | .fold d v => .next (s.completeFold v d)
  | .code _ d bs => .next ((s.commitDigest bs).completeFold (truncMasked bs).toNat d)

/-- On both states the command has the same ending. -/
def EndsAlike (i : Instr) (s s' : State) : Prop :=
  ∃ x : Ending i, exec i s = x.apply s ∧ exec i s' = x.apply s'

theorem endsAlike_b32enc (hs : SameInput s s') : EndsAlike .b32enc s s' := by
  simp only [EndsAlike, exec, execB32enc, ← hs.inputTooLong, ← hs.inputLength, ← hs.inputBytes]
  cases inputTooLong s with
  | true => exact ⟨.error .lengthError, rfl, rfl⟩
  | false =>
    cases inputBytes s (inputLength s) with
    | none => exact ⟨.stop, rfl, rfl⟩
    | some b => exact ⟨.text (.inl rfl) (base32Encode b), rfl, rfl⟩

theorem endsAlike_b32dec (hs : SameInput s s') : EndsAlike .b32dec s s' := by
  simp only [EndsAlike, exec, execB32dec, ← hs.textError, ← hs.inputLength, ← hs.inputBytes]
  cases textError s with
  | some e => exact ⟨.error e, rfl, rfl⟩
  | none =>
    cases inputBytes s (inputLength s) with
    | none => exact ⟨.stop, rfl, rfl⟩
    | some c =>
      dsimp only
      cases firstInvalid 0 c with
      | some e => exact ⟨.error e, rfl, rfl⟩
      | none => exact ⟨.text (.inr (.inl rfl)) (base32Decode c), rfl, rfl⟩

theorem endsAlike_hotpmsg (hlo : s.ctrLo = s'.ctrLo) (hhi : s.ctrHi = s'.ctrHi) : EndsAlike .hotpmsg s s' := by
  have hc : counter s = counter s' := BitVec.eq_of_toNat_eq (by simp only [counter_toNat, hlo, hhi])
  exact ⟨.text (.inr (.inr rfl)) (counterMessage (counter s)), rfl, by rw [hc]; rfl⟩

theorem endsAlike_hotptrunc (hs : SameInput s s') (a : Alg) : EndsAlike (.hotptrunc a) s s' := by
  simp only [EndsAlike, exec, execHotptrunc, ← hs.digestError, ← hs.inputBytes]
  cases digestError a s with
  | some e => exact ⟨.error e, rfl, rfl⟩
  | none =>
    cases inputBytes s (digestLen a) with
    | none => exact ⟨.stop, rfl, rfl⟩
    | some bs => exact ⟨.trunc a bs, rfl, rfl⟩

theorem endsAlike_hotpfold (hv : s.value = s'.value) (d : Nat) : EndsAlike (.hotpfold d) s s' := by
  have hf : foldOperand s = foldOperand s' := by simp only [foldOperand_eq, hv]
  simp only [EndsAlike, exec, execHotpfold, ← hf]
  cases validDigits d with
  | true => exact ⟨.fold d (foldOperand s), rfl, rfl⟩
  | false => exact ⟨.error .invalidDigits, rfl, rfl⟩

theorem endsAlike_hotpcode (hs : SameInput s s') (a : Alg) (d : Nat) : EndsAlike (.hotpcode a d) s s' := by
  simp only [EndsAlike, exec, execHotpcode, ← hs.digestError, ← hs.inputBytes]
  cases validDigits d with
  | false => exact ⟨.error .invalidDigits, rfl, rfl⟩
  | true =>
    cases digestError a s with
    | some e => exact ⟨.error e, rfl, rfl⟩
    | none =>
      cases inputBytes s (digestLen a) with
      | none => exact ⟨.stop, rfl, rfl⟩
      | some bs => exact ⟨.code a d bs, rfl, rfl⟩

end

/-! ### The obligations -/

/-- Settles O14: HOTPMSG has no other case than success, and commits the counter's message. -/
theorem hotpmsgSerialises : Obligations.HotpmsgSerialises := by
  intro s
  refine ⟨_, exec_hotpmsg s, ?_, obufHolds_of_ofBytes rfl (length_counterMessage _) fun i hi => ?_⟩
  · rw [commitOutput_completeSuccess_of_lt (by simp), length_counterMessage]
    rfl
  · rw [getElem?_counterMessage _ hi, counter_toNat]

/-- Settles O15: of HOTPTRUNC's cases only success is left, and it commits the truncation of the digest IBUF holds. -/
theorem hotptruncTruncates : Obligations.HotptruncTruncates := by
  intro s a h hn hl hh
  rw [exec_hotptrunc_of_input hn hl (inputIs_of_holds hh), commitDigest_eq, truncOffset_of_fn (digestLen_ge a),
    truncMasked_of_fn (digestLen_ge a)]
  rfl

/-- Settles O16: with a legal digit count HOTPFOLD has no other case than success. -/
theorem hotpfoldFolds : Obligations.HotpfoldFolds := fun s _ hd =>
  ⟨_, exec_hotpfold s hd, completeFold_eq s _ hd, obufHolds_completeFold s _ _⟩

/-- Settles O17: of HOTPCODE's cases only success is left, and it folds the masked value it commits. -/
theorem hotpcodeTruncatesAndFolds : Obligations.HotpcodeTruncatesAndFolds := by
  intro s a d h hd hn hl hh
  have hv : (truncMasked ((List.range (digestLen a)).map h)).toNat = digestMasked (digestLen a) h := by
    have hlt := digestMasked_lt (digestLen a) h
    rw [truncMasked_of_fn (digestLen_ge a), BitVec.toNat_ofNat, Nat.mod_eq_of_lt (by omega)]
  have hx := exec_hotpcode_of_input hd hn hl (inputIs_of_holds hh)
  rw [hv, commitDigest_eq, truncOffset_of_fn (digestLen_ge a), truncMasked_of_fn (digestLen_ge a)] at hx
  exact ⟨_, hx, completeFold_eq _ _ hd, obufHolds_completeFold _ _ d⟩

/-- Settles O18: the fold reads from VALUE the masked value that HOTPTRUNC stored there, all 31 bits of it. -/
theorem hotpcodeIsTruncThenFold : Obligations.HotpcodeIsTruncThenFold := by
  intro a d s t u hx ht hy hu
  obtain ⟨hn, hl, bs, hbs, rfl⟩ := hotptrunc_success hx ht
  obtain ⟨hd, rfl⟩ := hotpfold_success hy hu
  have hv : (s.commitDigest bs).completeSuccess.value.toNat % 2 ^ 31 = (truncMasked bs).toNat := by
    rw [State.completeSuccess_value, commitDigest_eq, Nat.mod_eq_of_lt (truncMasked_lt bs)]
  rw [hv, exec_hotpcode_of_input hd hn hl hbs]
  rfl

/-- Settles O19: OBUF holds the decimal digits of CODE, and the digits of a number below 10^d add up to it. -/
theorem renderedDigitsReadBack : Obligations.RenderedDigitsReadBack := by
  intro i d s t hi hx ht
  obtain ⟨hd, u, v, rfl⟩ := success_is_completeFold hi hx ht
  have hcode := completeFold_code u v hd
  have hlt : v % 10 ^ d < 10 ^ d := Nat.mod_lt _ (Nat.pow_pos (by omega))
  have hd8 : d ≤ 8 := by simp at hd; omega
  refine ⟨?_, hcode ▸ hlt, fun j => v % 10 ^ d / 10 ^ (d - 1 - j) % 10, fun j hj => ⟨?_, ?_⟩, ?_⟩
  · rw [completeFold_eq u v hd, BitVec.toNat_ofNat, Nat.mod_eq_of_lt (by omega)]
  · exact Nat.le_of_lt_succ (Nat.mod_lt _ (by omega))
  · exact (obufHolds_completeFold u v d).1 j hj
  · rw [hcode]
    exact sum_digits d _ hlt

/-- Settles O20: the ranges are those of the truncation committed; the code c is the fold of VALUE = c, which fits. -/
theorem hotpResultRanges : Obligations.HotpResultRanges := by
  refine ⟨fun a s t hx ht => ?_, fun a d s t hx ht => ?_, fun d c hd hc => ?_⟩
  · obtain ⟨_, _, bs, _, rfl⟩ := hotptrunc_success hx ht
    exact commitDigest_ranges s bs
  · obtain ⟨hd, bs, rfl⟩ := hotpcode_success hx ht
    obtain ⟨ho, hv⟩ := commitDigest_ranges s bs
    refine ⟨ho, hv, ?_⟩
    rw [completeFold_code _ _ hd]
    simp only [State.completeFold, State.completeSuccess_value, State.commitOutput_value, State.commitCode_value,
      commitDigest_eq]
  · have hc8 : c < 10 ^ 8 := hc.trans_le (Nat.pow_le_pow_right (by omega) (by simp at hd; omega))
    have hvalue : (State.reset.writeReg .value (BitVec.ofNat 32 c)).value.toNat = c := by
      have := toNat_and_value (BitVec.ofNat 32 c)
      simp only [State.writeReg, Reg.mask, this, BitVec.toNat_ofNat]
      omega
    refine ⟨_, _, inv_reset.writeReg .value (BitVec.ofNat 32 c) (by simp), exec_hotpfold _ hd, ?_⟩
    rw [completeFold_code _ _ hd, hvalue, Nat.mod_eq_of_lt (show c < 2 ^ 31 by omega), Nat.mod_eq_of_lt hc]

/-- Settles O21: the first case of either command is the one of an illegal digit count, and each other case needs a
legal one. -/
theorem digitsCheckedFirst : Obligations.DigitsCheckedFirst := by
  intro s d hd
  have herr : s.completeError .invalidDigits = { s with status := 0x6, errinfo := 0x2 } := by
    rw [State.completeError, show errinfoOf .invalidDigits = 0x2 by decide, statusError]
  rw [← herr]
  refine ⟨?_, fun a => ?_⟩
  · rcases execHotpfold_cases d s with ⟨_, hx⟩ | ⟨hok, _⟩
    · exact hx
    · exact absurd hok hd
  · rcases execHotpcode_cases a d s with ⟨_, hx⟩ | ⟨hok, _⟩ | ⟨hok, _⟩ | ⟨hok, _⟩ | ⟨hok, _⟩
    · exact hx
    all_goals exact absurd hok hd

/-- Settles O29: on both states the command has the same ending, which writes the same results on either. -/
theorem operandsDetermineResult : Obligations.OperandsDetermineResult := by
  intro i s s' hcfg hin hctr hvalue
  have hinput (hi : i = .b32enc ∨ i = .b32dec ∨ (∃ a, i = .hotptrunc a) ∨ ∃ a d, i = .hotpcode a d) :
      SameInput s s' := ⟨hcfg, (hin hi).1, (hin hi).2⟩
  have hends : EndsAlike i s s' := by
    cases i with
    | b32enc => exact endsAlike_b32enc (hinput (by simp))
    | b32dec => exact endsAlike_b32dec (hinput (by simp))
    | hotpmsg => exact endsAlike_hotpmsg (hctr rfl).1 (hctr rfl).2
    | hotptrunc a => exact endsAlike_hotptrunc (hinput (by simp)) a
    | hotpfold d => exact endsAlike_hotpfold (hvalue ⟨d, rfl⟩) d
    | hotpcode a d => exact endsAlike_hotpcode (hinput (by simp)) a d
  obtain ⟨x, hx, hx'⟩ := hends
  have hne : statusSuccess ≠ 0x6 := by decide
  cases x with
  | stop => exact .inl ⟨⟨_, hx⟩, _, hx'⟩
  | error e => exact .inr ⟨_, _, hx, hx', rfl, fun _ => rfl, fun h => absurd h (completeError_status_ne s e)⟩
  | text hi out =>
    refine .inr ⟨_, _, hx, hx', rfl, fun h => absurd h hne, fun _ => ⟨fun _ => ⟨rfl, fun _ => rfl⟩, ?_⟩⟩
    rcases hi with rfl | rfl | rfl <;> simp
  | trunc a bs =>
    exact .inr ⟨_, _, hx, hx', rfl, fun h => absurd h hne, fun _ =>
      ⟨fun h => absurd rfl (h a), fun _ => ⟨rfl, rfl⟩, fun h => by simp at h⟩⟩
  | fold d v =>
    exact .inr ⟨_, _, hx, hx', rfl, fun h => absurd h hne, fun _ =>
      ⟨fun _ => ⟨rfl, fun _ => rfl⟩, fun h => by simp at h, fun _ => rfl⟩⟩
  | code a d bs =>
    exact .inr ⟨_, _, hx, hx', rfl, fun h => absurd h hne, fun _ =>
      ⟨fun _ => ⟨rfl, fun _ => rfl⟩, fun _ => ⟨rfl, rfl⟩, fun _ => rfl⟩⟩

end Sys2Proof.Machine

/-! SUPPORT. Which errors apply to a decoded command, and that the engine reports the first of them in R221's order
(O22 to O25); illegal words (O3), B32DEC's invalid characters (O12), the outcomes of a completion (O26), and how a
pending command comes to run (O6, O8, O32). -/

namespace Sys2Proof

open Machine

section
variable {s : State} {w : Word} {i : Instr}

/-! ### Illegal words (R107) -/

theorem exists_alg_of_ne_three {n : Nat} (hlt : n < 4) (hne : n ≠ 3) : ∃ a : Alg, n = (fieldOfAlg a).toNat := by
  have hn : n = 0 ∨ n = 1 ∨ n = 2 := by omega
  rcases hn with rfl | rfl | rfl
  exacts [⟨.sha1, rfl⟩, ⟨.sha256, rfl⟩, ⟨.sha512, rfl⟩]

theorem fieldOfAlg_ne_three (a : Alg) : (fieldOfAlg a).toNat ≠ 3 := by
  cases a <;> decide

/-- A word outside R107's list has the fields of a command: each opcode from 1 to 6 with what the list leaves of the
other fields. -/
theorem exists_decode_of_not_illegalWord (h : ¬ illegalWord w) : ∃ i, decode w = .cmd i := by
  have halg := fieldAlg_lt w
  simp only [decode_eq_cmd_iff_fields]
  unfold illegalWord at h
  have hrsv : fieldRsv w = 0 := by omega
  have hop : fieldOp w = 1 ∨ fieldOp w = 2 ∨ fieldOp w = 3 ∨ fieldOp w = 4 ∨ fieldOp w = 5 ∨ fieldOp w = 6 := by omega
  rcases hop with hop | hop | hop | hop | hop | hop
  · exact ⟨.b32enc, hrsv, hop, (by omega : fieldDigits w = 0), (by omega : fieldAlg w = 0)⟩
  · exact ⟨.b32dec, hrsv, hop, (by omega : fieldDigits w = 0), (by omega : fieldAlg w = 0)⟩
  · exact ⟨.hotpmsg, hrsv, hop, (by omega : fieldDigits w = 0), (by omega : fieldAlg w = 0)⟩
  · obtain ⟨a, ha⟩ := exists_alg_of_ne_three halg (by omega)
    exact ⟨.hotptrunc a, hrsv, hop, (by omega : fieldDigits w = 0), ha⟩
  · exact ⟨.hotpfold (fieldDigits w), hrsv, hop, rfl, (by omega : fieldAlg w = 0)⟩
  · obtain ⟨a, ha⟩ := exists_alg_of_ne_three halg (by omega)
    exact ⟨.hotpcode a (fieldDigits w), hrsv, hop, rfl, ha⟩

theorem not_illegalWord_of_decode (h : decode w = .cmd i) : ¬ illegalWord w := by
  obtain ⟨hrsv, hop, hd, ha⟩ := decode_eq_cmd_iff_fields.1 h
  cases i <;> simp_all [illegalWord, fieldOfAlg_ne_three]

theorem decode_eq_illegal_iff : decode w = .illegal ↔ illegalWord w := by
  constructor
  · intro h
    by_contra hlegal
    obtain ⟨i, hi⟩ := exists_decode_of_not_illegalWord hlegal
    rw [h] at hi
    cases hi
  · intro h
    cases hw : decode w with
    | illegal => rfl
    | cmd i => exact absurd h (not_illegalWord_of_decode hw)

/-! ### The errors that apply to a command -/

/-- InvalidDigits applies to the command (R216). -/
@[simp] def Instr.illegalDigits : Instr → Prop
  | .hotpfold d | .hotpcode _ d => d ∉ [6, 7, 8]
  | .b32enc | .b32dec | .hotpmsg | .hotptrunc _ => False

/-- The command has an input of INLEN bytes (R111), which can be too long for IBUF (R218). -/
@[simp] def Instr.usesInlen : Instr → Prop
  | .b32enc | .b32dec | .hotptrunc _ | .hotpcode _ _ => True
  | .hotpmsg | .hotpfold _ => False

/-- InvalidLength applies to the command when INLEN is `n` (R217). -/
@[simp] def Instr.wrongLength (n : Nat) : Instr → Prop
  | .b32dec => n % 8 ≠ 0
  | .hotptrunc a | .hotpcode a _ => n ≠ digestLen a
  | .b32enc | .hotpmsg | .hotpfold _ => False

/-- `errorApplies` of the command that the pending word decodes to. -/
@[simp] def Instr.hasError (i : Instr) (s : State) : Nat → Prop
  | 2 => i.illegalDigits
  | 4 => i.usesInlen ∧ s.cfg.ibufSize < inlenOf s
  | 3 => i.wrongLength (inlenOf s)
  | 1 => i = .b32dec ∧ ∃ j c, j < inlenOf s ∧ s.ibuf.read j = some c ∧ val32 c = none
  | _ => False

/-- R215 to R219 speak of the word's fields, which are those of the command (R105). -/
theorem errorApplies_iff_hasError (h : decode s.cmd = .cmd i) (e : Nat) : errorApplies s e ↔ i.hasError s e := by
  have hlegal := not_illegalWord_of_decode h
  obtain ⟨_, hop, hd, ha⟩ := decode_eq_cmd_iff_fields.1 h
  unfold errorApplies Instr.hasError
  split
  · simpa using hlegal
  · cases i <;> simp [hop, hd]
  · cases i <;> simp [hop]
  · cases i <;> simp [hop, ha, algOfField_eq_some_iff.2 rfl]
  · cases i <;> simp [hop]
  · simp [*]

end

end Sys2Proof

namespace Sys2Proof.Machine

section
variable {s t : State} {i : Instr} {P : Nat → Prop} {e : CmdError}

/-! ### The first error that applies (R221) -/

/-- `n` is the first ECODE, in R221's order, of which `P` holds. -/
def FirstError (P : Nat → Prop) (n : Nat) : Prop :=
  ∃ higher lower, [5, 2, 4, 3, 1] = higher ++ n :: lower ∧ P n ∧ ∀ x, x ∈ higher → ¬ P x

theorem FirstError.unique {m n : Nat} (hm : FirstError P m) (hn : FirstError P n) : m = n := by
  obtain ⟨h, l, hlist, hP, hnone⟩ := hm
  obtain ⟨h', l', hlist', hP', hnone'⟩ := hn
  rcases List.append_eq_append_iff.1 (hlist.symm.trans hlist') with ⟨_ | ⟨x, r⟩, rfl, hr⟩ | ⟨_ | ⟨x, r⟩, rfl, hr⟩
  · exact (List.cons.inj hr).1
  · exact absurd ((List.cons.inj hr).1 ▸ hP) (hnone' x (by simp))
  · exact (List.cons.inj hr).1.symm
  · exact absurd ((List.cons.inj hr).1 ▸ hP') (hnone x (by simp))

theorem FirstError.applies_and_mem {n : Nat} (h : FirstError P n) : P n ∧ n ∈ [5, 2, 4, 3, 1] := by
  obtain ⟨_, _, hlist, hP, _⟩ := h
  exact ⟨hP, by rw [hlist]; simp⟩

/-- How a completion from `s` ends, where `P` says of each ECODE whether its error applies: with the first error, with
the stop when no check before it fails, or in success when no error applies. InvalidCharacter is reported of a byte of
an input that is wholly written. -/
inductive EndsInOrder (P : Nat → Prop) (s : State) : Host.Outcome State Fault Refusal → Prop where
  | error (e : CmdError) (hfirst : FirstError P (ecode e).toNat)
      (hchar : ∀ c j, e = .invalidCharacter c j →
        j < inlenOf s ∧ s.ibuf.read j = some c ∧ ∀ k, k < inlenOf s → s.ibuf.read k ≠ none) :
      EndsInOrder P s (.next (s.completeError e))
  | stop (hnone : ∀ n, n ∈ [5, 2, 4, 3] → ¬ P n) : EndsInOrder P s (stopUnwritten s)
  | success (t : State) (ht : t.status = 0x2) (hnone : ∀ n, n ∈ [5, 2, 4, 3, 1] → ¬ P n) :
      EndsInOrder P s (.next t)

theorem inputIs.read_ne_none {n : Nat} {bs : List Byte} (h : inputIs s n bs) {k : Nat} (hk : k < n) :
    s.ibuf.read k ≠ none := fun hnone => inputMissing_not_inputIs ⟨k, hk, hnone⟩ h

/-- A character of the input that `val32` rejects is among the bytes read. -/
theorem inputIs.firstInvalid_eq_none_iff {n : Nat} {cs : List Byte} (h : inputIs s n cs) :
    firstInvalid 0 cs = none ↔ ¬ ∃ j c, j < n ∧ s.ibuf.read j = some c ∧ val32 c = none := by
  obtain ⟨hl, hr⟩ := h
  rw [firstInvalid_none]
  constructor
  · rintro hvalid ⟨j, c, hj, hc, hbad⟩
    exact hvalid c (List.mem_of_getElem? ((hr j hj).symm.trans hc)) hbad
  · intro hnone c hc hbad
    obtain ⟨j, hj, rfl⟩ := List.getElem_of_mem hc
    exact hnone ⟨j, _, hl ▸ hj, by rw [hr j (hl ▸ hj), List.getElem?_eq_getElem hj], hbad⟩

/-- The error names a rejected character of the input. -/
theorem inputIs.firstInvalid_eq_some {n : Nat} {cs : List Byte} (h : inputIs s n cs) (he : firstInvalid 0 cs = some e) :
    ∃ j c, e = .invalidCharacter c j ∧ j < n ∧ s.ibuf.read j = some c ∧ val32 c = none := by
  obtain ⟨hl, hr⟩ := h
  obtain ⟨j, c, hc, hbad, _, rfl⟩ := firstInvalid_some he
  have hj : j < n := hl ▸ (List.getElem?_eq_some_iff.1 hc).1
  exact ⟨j, c, by rw [Nat.zero_add], hj, (hr j hj).trans hc, hbad⟩

/-! ### Each command ends in order -/

theorem b32enc_endsInOrder (s : State) : EndsInOrder (Instr.b32enc.hasError s) s (exec .b32enc s) := by
  rcases execB32enc_cases s with ⟨hn, hx⟩ | ⟨hn, _, hx⟩ | ⟨hn, _, _, hx⟩ <;> rw [hx]
  · exact .error _ ⟨[5, 2], [3, 1], rfl, ⟨trivial, hn⟩, by simp⟩ nofun
  · exact .stop (by simp [hn])
  · exact .success _ rfl (by simp [hn])

theorem b32dec_endsInOrder (s : State) : EndsInOrder (Instr.b32dec.hasError s) s (exec .b32dec s) := by
  rcases execB32dec_cases s with ⟨hn, hx⟩ | ⟨hn, h8, hx⟩ | ⟨hn, h8, _, hx⟩ | ⟨hn, h8, cs, hcs, ⟨e, he, hx⟩ | ⟨hv, hx⟩⟩ <;>
    rw [hx]
  · exact .error _ ⟨[5, 2], [3, 1], rfl, ⟨trivial, hn⟩, by simp⟩ nofun
  · exact .error _ ⟨[5, 2, 4], [1], rfl, h8, by simp [hn]⟩ nofun
  · exact .stop (by simp [hn, h8])
  · obtain ⟨j, c, rfl, hj, hc, hbad⟩ := hcs.firstInvalid_eq_some he
    refine .error _ ⟨[5, 2, 4, 3], [], rfl, ⟨rfl, j, c, hj, hc, hbad⟩, by simp [hn, h8]⟩ fun c' j' heq => ?_
    cases heq
    exact ⟨hj, hc, fun k hk => hcs.read_ne_none hk⟩
  · have hvalid := hcs.firstInvalid_eq_none_iff.1 hv
    exact .success _ rfl (by simpa [hn, h8] using hvalid)

theorem hotpmsg_endsInOrder (s : State) : EndsInOrder (Instr.hotpmsg.hasError s) s (exec .hotpmsg s) :=
  .success _ rfl (by simp)

theorem hotptrunc_endsInOrder (a : Alg) (s : State) :
    EndsInOrder ((Instr.hotptrunc a).hasError s) s (exec (.hotptrunc a) s) := by
  rcases execHotptrunc_cases a s with ⟨hn, hx⟩ | ⟨hn, hl, hx⟩ | ⟨hn, hl, _, hx⟩ | ⟨hn, hl, _, _, hx⟩ <;> rw [hx]
  · exact .error _ ⟨[5, 2], [3, 1], rfl, ⟨trivial, hn⟩, by simp⟩ nofun
  · exact .error _ ⟨[5, 2, 4], [1], rfl, hl, by simp [hn]⟩ nofun
  · exact .stop (by simp [hl, hl ▸ hn])
  · exact .success _ rfl (by simp [hl, hl ▸ hn])

theorem hotpfold_endsInOrder (d : Nat) (s : State) :
    EndsInOrder ((Instr.hotpfold d).hasError s) s (exec (.hotpfold d) s) := by
  rcases execHotpfold_cases d s with ⟨hd, hx⟩ | ⟨hd, hx⟩ <;> rw [hx]
  · exact .error _ ⟨[5], [4, 3, 1], rfl, hd, by simp⟩ nofun
  · exact .success _ rfl (by simp [hd])

theorem hotpcode_endsInOrder (a : Alg) (d : Nat) (s : State) :
    EndsInOrder ((Instr.hotpcode a d).hasError s) s (exec (.hotpcode a d) s) := by
  rcases execHotpcode_cases a d s with ⟨hd, hx⟩ | ⟨hd, hn, hx⟩ | ⟨hd, hn, hl, hx⟩ | ⟨hd, hn, hl, _, hx⟩ |
    ⟨hd, hn, hl, _, _, hx⟩ <;> rw [hx]
  · exact .error _ ⟨[5], [4, 3, 1], rfl, hd, by simp⟩ nofun
  · exact .error _ ⟨[5, 2], [3, 1], rfl, ⟨trivial, hn⟩, by simp [hd]⟩ nofun
  · exact .error _ ⟨[5, 2, 4], [1], rfl, hl, by simp [hn, hd]⟩ nofun
  · exact .stop (by simp [hl, hl ▸ hn, hd])
  · exact .success _ rfl (by simp [hl, hl ▸ hn, hd])

theorem exec_endsInOrder (i : Instr) (s : State) : EndsInOrder (i.hasError s) s (exec i s) := by
  cases i with
  | b32enc => exact b32enc_endsInOrder s
  | b32dec => exact b32dec_endsInOrder s
  | hotpmsg => exact hotpmsg_endsInOrder s
  | hotptrunc a => exact hotptrunc_endsInOrder a s
  | hotpfold d => exact hotpfold_endsInOrder d s
  | hotpcode a d => exact hotpcode_endsInOrder a d s

theorem engineStep_endsInOrder (s : State) : EndsInOrder (errorApplies s) s (engineStep s) := by
  rcases engineStep_cases s with ⟨hill, hx⟩ | ⟨i, hi, hx⟩ <;> rw [hx]
  · exact .error _ ⟨[], [2, 4, 3, 1], rfl, decode_eq_illegal_iff.1 hill, by simp⟩ nofun
  · rw [show errorApplies s = i.hasError s from funext fun n => propext (errorApplies_iff_hasError hi n)]
    exact exec_endsInOrder i s

/-- R221's operands and conditions are those of the block, which a turn does not touch. -/
theorem step_endsInOrder (h : engineNext s) : EndsInOrder (errorApplies s) (afterTurn s) (step s) := by
  rw [step_of_engineNext h]
  exact engineStep_endsInOrder (afterTurn s)

/-! ### The error a command ends in -/

theorem eq_of_ecode_toNat_eq {e e' : CmdError} (he : (ecode e).toNat ≠ 1) (h : (ecode e).toNat = (ecode e').toNat) :
    e = e' := by
  cases e with
  | invalidCharacter => exact absurd rfl he
  | _ => cases e' <;> cases h; rfl

/-- A command ends in the first error that applies to it, where that error is not InvalidCharacter. -/
theorem exec_of_firstError (hne : (ecode e).toNat ≠ 1) (hfirst : FirstError (i.hasError s) (ecode e).toNat) :
    exec i s = .next (s.completeError e) := by
  obtain ⟨happlies, hmem⟩ := hfirst.applies_and_mem
  generalize hx : exec i s = x
  have hends : EndsInOrder (i.hasError s) s x := hx ▸ exec_endsInOrder i s
  cases hends with
  | error e' hfirst' _ => rw [eq_of_ecode_toNat_eq hne (hfirst.unique hfirst')]
  | stop hnone =>
    have hmem' : (ecode e).toNat ∈ [5, 2, 4, 3] := by simpa [hne] using hmem
    exact absurd happlies (hnone _ hmem')
  | success t _ hnone => exact absurd happlies (hnone _ hmem)

theorem exec_lengthError (hi : i.usesInlen) (hd : ¬ i.illegalDigits) (hn : s.cfg.ibufSize < inlenOf s) :
    exec i s = .next { s with status := 0x6, errinfo := 0x4 } :=
  exec_of_firstError (e := .lengthError) (by decide) ⟨[5, 2], [3, 1], rfl, ⟨hi, hn⟩, by simpa using hd⟩

theorem exec_invalidLength (hd : ¬ i.illegalDigits) (hn : inlenOf s ≤ s.cfg.ibufSize) (hl : i.wrongLength (inlenOf s)) :
    exec i s = .next { s with status := 0x6, errinfo := 0x3 } :=
  exec_of_firstError (e := .invalidLength) (by decide) ⟨[5, 2, 4], [1], rfl, hl, by simpa [hn] using hd⟩

/-! ### ERRINFO -/

theorem ecodeField_errinfoOf (e : CmdError) : ecodeField (errinfoOf e) = (ecode e).toNat := by
  have hlt := (ecode e).isLt
  rw [ecodeField, errinfoOf, errinfo_toNat]
  omega

/-- ERRINFO of InvalidCharacter as a number. -/
theorem errinfoOf_invalidCharacter (c : Byte) (j : Nat) :
    errinfoOf (.invalidCharacter c j) = BitVec.ofNat 32 (0x1 + c.toNat * 2 ^ 8 + j * 2 ^ 16) := by
  have hc := c.isLt
  apply BitVec.eq_of_toNat_eq
  rw [errinfoOf, errinfo_toNat, BitVec.toNat_ofNat]
  simp only [ecode, echar, eindex, BitVec.toNat_ofNat, show (1 : BitVec 4).toNat = 1 from rfl]
  omega

/-! ### B32DEC's first invalid character -/

theorem firstInvalid_eq_some {cs : List Byte} {j : Nat} {c : Byte} (hc : cs[j]? = some c) (hbad : val32 c = none)
    (hvalid : ∀ k, k < j → ∀ d, cs[k]? = some d → val32 d ≠ none) :
    firstInvalid 0 cs = some (.invalidCharacter c j) := by
  cases hf : firstInvalid 0 cs with
  | none => exact absurd hbad (firstInvalid_none.1 hf c (List.mem_of_getElem? hc))
  | some e =>
    obtain ⟨k, d, hd, hbad', hvalid', rfl⟩ := firstInvalid_some hf
    rcases Nat.lt_trichotomy k j with hkj | rfl | hjk
    · exact absurd hbad' (hvalid k hkj d hd)
    · cases hc.symm.trans hd
      rw [Nat.zero_add]
    · exact absurd hbad (hvalid' j hjk c hc)

theorem execB32dec_of_invalid {c : Nat → Byte} {j : Nat} (hn : inlenOf s ≤ s.cfg.ibufSize) (h8 : inlenOf s % 8 = 0)
    (hb : ibufHolds s (inlenOf s) c) (hj : j < inlenOf s) (hbad : val32 (c j) = none)
    (hvalid : ∀ k, k < j → val32 (c k) ≠ none) :
    exec .b32dec s = .next (s.completeError (.invalidCharacter (c j) j)) := by
  have hat : ∀ k, k < inlenOf s → ((List.range (inlenOf s)).map c)[k]? = some (c k) := fun k hk => by simp [hk]
  have hfirst : firstInvalid 0 ((List.range (inlenOf s)).map c) = some (.invalidCharacter (c j) j) := by
    refine firstInvalid_eq_some (hat j hj) hbad fun k hk d hd => ?_
    cases (hat k (by omega)).symm.trans hd
    exact hvalid k hk
  rcases execB32dec_cases s with ⟨hlong, _⟩ | ⟨_, h8', _⟩ | ⟨_, _, hm, _⟩ | ⟨_, _, cs, hcs, hx⟩
  · omega
  · exact absurd h8 h8'
  · exact absurd (inputIs_of_holds hb) (inputMissing_not_inputIs hm)
  · rw [inputIs_unique hcs (inputIs_of_holds hb), hfirst] at hx
    rcases hx with ⟨e, he, hx⟩ | ⟨hnone, _⟩
    · cases he
      exact hx
    · cases hnone

/-! ### A pending command runs -/

theorem engineStep_of_decode (h : decode s.cmd = .cmd i) : engineStep s = exec i s := by
  simp only [engineStep, pendingWord_eq, h]

theorem engineStep_of_illegal (h : decode s.cmd = .illegal) : engineStep s = .next (s.completeError .illegalCommand) := by
  simp only [engineStep, pendingWord_eq, h]

theorem step_of_decode (he : engineNext s) (h : decode s.cmd = .cmd i) : step s = exec i (afterTurn s) := by
  rw [step_of_engineNext he]
  exact engineStep_of_decode (s := afterTurn s) h

theorem busy_withFetchWord (s : State) (nbits w : Nat) : (s.withFetchWord nbits w).busy = true := by
  show statusBusy.getLsbD 0 = true
  decide

theorem engineNext_withFetchWord (s : State) (nbits w : Nat) : engineNext (s.withFetchWord nbits w) :=
  ⟨busy_withFetchWord s nbits w, nofun⟩

theorem afterTurn_withFetchWord (s : State) (nbits w : Nat) :
    afterTurn (s.withFetchWord nbits w) = s.issue (tableWord nbits w) := by
  rw [afterTurn, if_pos (busy_withFetchWord s nbits w)]
  rfl

theorem tableWord_of_lt {nbits w : Nat} (h : w < 2 ^ nbits) : tableWord nbits w = BitVec.ofNat 32 w := by
  rw [tableWord, Nat.mod_eq_of_lt h]

theorem decode_of_decodeTableWord {nbits w : Nat} (h : decodeTableWord nbits w = some i) :
    decode (tableWord nbits w) = .cmd i := by
  unfold decodeTableWord at h
  split at h
  · rename_i hd
    cases h
    exact hd
  · cases h

/-- While BUSY a write of any register is a hazard (R256). -/
theorem hostMove_write_reg_busy (hb : s.busy = true) (r : Reg) (w : Word) :
    hostMove s (.write (s.cfg.base + r.offsetInWindow) 32 w) = hostHazard s := by
  have hwin : r.offsetInWindow < 0x4000 := (offsetInWindow_lt r).trans (by decide)
  exact (hostWrite_reached (windowOffset_of_offset s.cfg hwin) (busTarget_reg s.cfg true r)).trans (if_pos hb)

end

/-! ### The obligations -/

/-- Settles O3: a word decodes to no command exactly if its fields are those of none, which is R107's list. -/
theorem illegalWordsFail : Obligations.IllegalWordsFail := by
  intro w
  refine ⟨decode_eq_illegal_iff, fun s hw hcmd he => ?_⟩
  have hill : decode (afterTurn s).cmd = .illegal := decode_eq_illegal_iff.2 (hcmd ▸ hw)
  rw [step_of_engineNext he, engineStep_of_illegal hill]
  rfl

/-- Settles O12: the bytes before index i have values and the one at i has none, so i is the index reported. -/
theorem b32decReportsFirstInvalid : Obligations.B32decReportsFirstInvalid := by
  intro s c i hn h8 hb hi hbad hvalid
  have hx := execB32dec_of_invalid hn h8 hb hi ((val32_eq_none_iff _).2 hbad) fun j hj hnone =>
    (val32_eq_none_iff _).1 hnone (hvalid j hj)
  rw [State.completeError, errinfoOf_invalidCharacter] at hx
  refine ⟨hx, ?_⟩
  rintro rfl hc
  rw [hx, hc]
  rfl

/-- Settles O22: with legal digits LengthError is the first error that can apply to a command that uses INLEN; the other
two commands read no INLEN. -/
theorem lengthErrorRaised : Obligations.LengthErrorRaised := by
  refine ⟨fun s hn => ⟨exec_lengthError trivial not_false hn, exec_lengthError trivial not_false hn, fun a =>
    ⟨exec_lengthError trivial not_false hn, fun d hd => exec_lengthError trivial (not_not.2 hd) hn⟩⟩,
    fun s t x d => ⟨fun hx => ?_, fun hx => ?_⟩⟩
  · cases hx
    exact ⟨rfl, rfl⟩
  · by_cases hd : d ∈ [6, 7, 8]
    · rw [exec_hotpfold s hd] at hx
      cases hx
      exact ⟨fun h => absurd h (by decide : statusSuccess ≠ 0x6), exec_hotpfold _ hd⟩
    · have hfail := fun u => (digitsCheckedFirst u d hd).1
      rw [hfail s] at hx
      cases hx
      exact ⟨fun _ => rfl, hfail _⟩

/-- Settles O23: with legal digits and an input that fits IBUF, InvalidLength is the first error that can apply. -/
theorem invalidLengthRaised : Obligations.InvalidLengthRaised := fun _ hn =>
  ⟨fun h8 => exec_invalidLength (i := .b32dec) not_false hn h8, fun a hl =>
    ⟨exec_invalidLength (i := .hotptrunc a) not_false hn hl, fun d hd =>
      exec_invalidLength (i := .hotpcode a d) (not_not.2 hd) hn hl⟩⟩

/-- Settles O24: each clause is read off the one way in which a completion ends in R221's order. -/
theorem errorPriority : Obligations.ErrorPriority := by
  intro s he
  have hends := step_endsInOrder he
  generalize step s = x at hends ⊢
  cases hends with
  | error e hfirst hchar =>
    obtain ⟨higher, lower, hlist, happlies, hnone⟩ := hfirst
    refine ⟨fun t hx _ => ?_, fun t hx ht => ?_, nofun, fun t hx _ hcode => ?_⟩ <;> cases hx
    · exact ⟨higher, _, lower, hlist, happlies, hnone, ecodeField_errinfoOf e⟩
    · exact absurd ht (completeError_status_ne _ e)
    · rw [State.completeError_errinfo, ecodeField_errinfoOf] at hcode
      cases e with
      | invalidCharacter c j =>
        obtain ⟨_, _, hwritten⟩ := hchar c j rfl
        exact hwritten
      | _ => cases hcode
  | stop hnone => exact ⟨nofun, nofun, fun _ _ => hnone, nofun⟩
  | success u hu hnone =>
    have hne : u.status ≠ 0x6 := by rw [hu]; decide
    refine ⟨fun t hx ht => ?_, fun t _ _ => hnone, nofun, fun t hx ht => ?_⟩ <;> cases hx <;> exact absurd ht hne

/-- Settles O25: an error completion writes `errinfoOf` of the error reported, and the index of a rejected byte of the
input fits EINDEX. -/
theorem errorCompletionIsPrecise : Obligations.ErrorCompletionIsPrecise := by
  intro s t he hx ht
  have hends := step_endsInOrder he
  rw [hx] at hends
  cases hends with
  | error e _ hchar =>
    refine ⟨eindex e, echar e, ecode e, rfl, ?_⟩
    cases e with
    | invalidCharacter c j =>
      obtain ⟨hj, hc, _⟩ := hchar c j rfl
      have hindex : (eindex (.invalidCharacter c j)).toNat = j := by
        have := inlenOf_lt (afterTurn s)
        rw [eindex, BitVec.toNat_ofNat, Nat.mod_eq_of_lt (by omega)]
      exact ⟨.inl rfl, fun h => absurd rfl h, fun _ => by rw [hindex]; exact ⟨hj, hc⟩⟩
    | _ => simp [ecode, eindex, echar]
  | success _ hu _ => rw [hu] at ht; cases ht

/-- Settles O26: the outcomes of a completion, with ERRINFO kept by a success. -/
theorem completionOutcomes : Obligations.CompletionOutcomes := by
  intro s he
  rw [step_of_engineNext he]
  rcases engineStep_outcome (afterTurn s) with ⟨e, hx⟩ | hx | ⟨t, hx, ht, herr⟩
  · exact .inl ⟨_, hx, .inl rfl⟩
  · exact .inr hx
  · exact .inl ⟨t, hx, .inr ⟨ht, herr⟩⟩

/-- Settles O6: the engine's step reads the word in CMD, which the turn does not change. -/
theorem stepRunsDecodedCommand : Obligations.StepRunsDecodedCommand := fun _ _ he h => step_of_decode he h

/-- Settles O8: the state built is pending with the engine's turn, and that turn takes the schedule's entry away again. -/
theorem fetchedWordRunsNext : Obligations.FetchedWordRunsNext := by
  intro s w i hw h
  rw [step_of_decode (engineNext_withFetchWord s 32 w) (decode_of_decodeTableWord h), afterTurn_withFetchWord,
    tableWord_of_lt hw]
  rfl

/-- Settles O32: a write of CMD while idle is the issue; while BUSY it is the hazard of any register write. -/
theorem cmdWriteIssues : Obligations.CmdWriteIssues := fun s w =>
  ⟨fun hb => hostMove_write_reg s .cmd w hb, fun hb => hostMove_write_reg_busy hb .cmd w⟩

end Sys2Proof.Machine

/-! SUPPORT. What an access does while BUSY (O34), reset as the host's move (O40), and that a run leaves BUSY in every
schedule (O45), with WAIT at the head of the host's moves as well (O46). -/

namespace Sys2Proof.Machine

section
variable {s t : State} {P Q : State → Prop} {m n : Nat}

/-! ### Accesses while BUSY -/

/-- STATUS is what an access at offset 0x004 reaches, and no other one. -/
theorem busTarget_status_iff {cfg : Config} {isWrite : Bool} {off width : Nat} {tgt : Target}
    (h : busTarget cfg isWrite off width = some tgt) : tgt = .reg .status ↔ off = 0x004 := by
  rcases busTarget_eq_some h with ⟨r, rfl, _, rfl⟩ | ⟨i, rfl, _, rfl, _⟩ | ⟨i, rfl, _, _, rfl, _⟩
  · cases r <;> simp [Reg.offsetInWindow]
  · simp; omega
  · simp; omega

theorem hostMove_access_status {width : Nat} {tgt : Target} (data : Word)
    (ht : busTarget s.cfg false 0x004 width = some tgt) :
    hostMove s (accessMove s.cfg false 0x004 width data) = s.respond (.word (s.readReg .status)) := by
  obtain rfl : tgt = .reg .status := (busTarget_status_iff ht).2 rfl
  exact hostRead_reached (windowOffset_of_offset s.cfg (by decide)) ht

theorem hostMove_access_hazard {isWrite : Bool} {off width : Nat} {tgt : Target} (data : Word) (hb : s.busy = true)
    (hwin : off < 0x4000) (ht : busTarget s.cfg isWrite off width = some tgt)
    (hne : ¬(off = 0x004 ∧ isWrite = false)) :
    hostMove s (accessMove s.cfg isWrite off width data) = hostHazard s := by
  have ho := windowOffset_of_offset s.cfg hwin
  cases isWrite with
  | true => exact (hostWrite_reached ho ht).trans (if_pos hb)
  | false =>
    have hstatus : tgt ≠ .reg .status := fun h => hne ⟨(busTarget_status_iff ht).1 h, rfl⟩
    exact (hostRead_reached ho ht).trans (hostReadTarget_hazard hb hstatus)

/-! ### Reset and a turn of WAIT -/

@[simp] theorem State.platformReset_busy (s : State) : s.platformReset.busy = false := by simp [State.busy]

theorem readReg_status_bit0 (s : State) : (s.readReg .status).getLsbD 0 = s.busy := by
  simp [State.readReg, State.stored, Reg.mask, State.busy]

theorem hostMove_wait_idle (hb : s.busy = false) :
    hostMove s .wait = s.respond (.word (s.readReg .status)) := by
  rw [hostMove, hostWait_eq, hb]
  rfl

theorem hostMove_wait_busy (hb : s.busy = true) :
    hostMove s .wait = { s.respond (.word (s.readReg .status)) with host := .wait :: s.host } := by
  rw [hostMove, hostWait_eq, hb]
  rfl

/-! ### A step while BUSY completes the command, stops, or uses up an entry of the schedule -/

theorem engineStep_host (h : engineStep s = .next t) : t.host = s.host := by
  rcases engineStep_cases s with ⟨_, hc⟩ | ⟨i, _, hc⟩ <;> rw [hc] at h
  · cases h
    rfl
  · obtain ⟨_, _, _, _, _, hhost, _, _⟩ := exec_frame h
    exact hhost

theorem hostTurn_schedule (s : State) : (hostTurn s).schedule = s.schedule := by
  rcases hostTurn_cases s with ⟨_, hc⟩ | ⟨m, rest, _, hc⟩ <;> rw [hc]
  exact hostMove_schedule { s with host := rest } m

theorem step_of_busy (hb : s.busy = true) :
    (∃ t, step s = .next t ∧ t.busy = false) ∨ (∃ f, step s = .fault f) ∨
    ∃ t, step s = .next t ∧ s.schedule = .host :: t.schedule := by
  rcases engineNext_or_hostNext s with ⟨he, _⟩ | ⟨hh, _⟩
  · rw [step_of_engineNext he]
    rcases engineStep_outcome (afterTurn s) with ⟨e, hc⟩ | hc | ⟨t, hc, _, _⟩
    · exact .inl ⟨_, hc, engineStep_not_busy hc⟩
    · exact .inr (.inl ⟨_, hc⟩)
    · exact .inl ⟨t, hc, engineStep_not_busy hc⟩
  · have hhead : s.schedule.head? = some .host := hh.resolve_left (by simp [hb])
    refine .inr (.inr ⟨_, step_of_hostNext hh, ?_⟩)
    rw [hostTurn_schedule]
    simp only [afterTurn, hb, if_true]
    exact (List.cons_head?_tail hhead).symm

/-! ### Runs that end within a bound -/

/-- In at most `n` steps the run from `s` reaches a state of which `P` holds, or stops with a fault. -/
def EndsWithin (n : Nat) (s : State) (P : State → Prop) : Prop :=
  ∃ k, k ≤ n ∧ ((∃ t, core.run k s = .next t ∧ P t) ∨ ∃ f, core.run k s = .fault f)

theorem EndsWithin.now (h : P s) : EndsWithin n s P := ⟨0, n.zero_le, .inl ⟨s, rfl, h⟩⟩

theorem EndsWithin.of_fault {f : Fault} (h : step s = .fault f) : EndsWithin (n + 1) s P :=
  ⟨1, by omega, .inr ⟨f, core_run_fault 0 s f h⟩⟩

theorem EndsWithin.of_next (h : step s = .next t) (ht : EndsWithin n t P) : EndsWithin (n + 1) s P := by
  obtain ⟨k, hk, hrun⟩ := ht
  exact ⟨k + 1, by omega, by rw [core_run_succ k s t h]; exact hrun⟩

theorem EndsWithin.mono (h : EndsWithin m s P) (hmn : m ≤ n) : EndsWithin n s P := by
  obtain ⟨k, hk, hrun⟩ := h
  exact ⟨k, hk.trans hmn, hrun⟩

/-- What every step while BUSY keeps still holds when the run is idle, which it is after at most one step more than the
schedule has entries; so a run that ends within `m` steps from there ends within that many more (R260, log 3). -/
theorem EndsWithin.of_idle (hkeep : ∀ u v, u.busy = true → Q u → step u = .next v → Q v)
    (hidle : ∀ u, u.busy = false → Q u → EndsWithin m u P) {s : State} (hQ : Q s) :
    EndsWithin (m + s.schedule.length + 1) s P := by
  cases hb : s.busy with
  | false => exact (hidle s hb hQ).mono (by omega)
  | true =>
    rcases step_of_busy hb with ⟨t, ht, htb⟩ | ⟨f, hf⟩ | ⟨t, ht, hsched⟩
    · exact .of_next ht ((hidle t htb (hkeep s t hb hQ ht)).mono (by omega))
    · exact .of_fault hf
    · have hlen : s.schedule.length = t.schedule.length + 1 := congrArg List.length hsched
      exact .of_next ht ((EndsWithin.of_idle hkeep hidle (hkeep s t hb hQ ht)).mono (by omega))
termination_by s.schedule.length

/-! ### WAIT in a run -/

/-- WAIT is over: `rest` are the next moves, nothing is pending, and the last answer is a STATUS with BUSY = 0. -/
def WaitDone (rest : List HostMove) (t : State) : Prop :=
  t.host = rest ∧ t.busy = false ∧ ∃ r, t.responses.head? = some (.word r) ∧ r.getLsbD 0 = false

theorem step_keeps_wait {rest : List HostMove} (hb : s.busy = true) (hw : s.host = .wait :: rest)
    (h : step s = .next t) : t.host = .wait :: rest := by
  rcases engineNext_or_hostNext s with ⟨he, _⟩ | ⟨hh, _⟩
  · rw [step_of_engineNext he] at h
    exact (engineStep_host h).trans hw
  · rw [(stepRunsHostMove s hh).1 .wait rest hw,
      hostMove_wait_busy (s := { afterTurn s with host := rest }) hb] at h
    cases h
    rfl

theorem wait_endsWithin_of_idle {rest : List HostMove} (hb : s.busy = false) (hw : s.host = .wait :: rest) :
    EndsWithin 1 s (WaitDone rest) := by
  have hstep := (stepRunsHostMove s (.inl hb)).1 .wait rest hw
  rw [hostMove_wait_idle (s := { afterTurn s with host := rest }) hb] at hstep
  exact .of_next hstep (.now ⟨rfl, hb, _, rfl, (readReg_status_bit0 _).trans hb⟩)

end

/-! ### The obligations -/

/-- Settles O34: the address decoding refuses exactly R73's list, and of what it lets through only a read at offset 0x004
reaches STATUS, with no hazard. -/
theorem busyAccesses : Obligations.BusyAccesses := by
  intro s isWrite off width data hwf hwin hb
  rw [← busTarget_eq_none_iff s.cfg isWrite off width hwf hwin]
  refine ⟨hostMove_access_refused data hwin, fun hne hstatus => ?_, fun hne hother => ?_⟩
  all_goals obtain ⟨tgt, ht⟩ := Option.ne_none_iff_exists'.1 hne
  · obtain ⟨rfl, rfl⟩ := hstatus
    exact hostMove_access_status data ht
  · exact hostMove_access_hazard data hb hwin ht hother

/-- Settles O40: reset is the host's move, and it leaves the marks, the parameters and the host's own fields. -/
theorem resetAbandonsPending : Obligations.ResetAbandonsPending := by
  intro s rest hh hreset
  have hstep := (stepRunsHostMove s hh).1 .reset rest hreset
  exact ⟨_, hstep, stored_platformReset _, Memory.read_nil, Memory.read_nil, State.platformReset_busy _, rfl,
    rfl, rfl, rfl, rfl⟩

/-- Settles O45: the run leaves BUSY within the schedule, and in no fewer than one step as it starts BUSY. -/
theorem pendingCommandCompletes : Obligations.PendingCommandCompletes := by
  intro s hb
  obtain ⟨k, hk, hrun⟩ := EndsWithin.of_idle (m := 0) (Q := fun _ => True) (P := fun t => t.busy = false)
    (fun _ _ _ _ _ => trivial) (fun _ hidle _ => .now hidle) (s := s) trivial
  refine ⟨k, Nat.pos_of_ne_zero ?_, by omega, hrun⟩
  rintro rfl
  rcases hrun with ⟨t, ht, hidle⟩ | ⟨f, hf⟩
  · cases ht
    exact absurd hb (by simp [hidle])
  · cases hf

/-- Settles O46: WAIT stays the next move while the run is BUSY, and its first turn after that ends it. -/
theorem waitEnds : Obligations.WaitEnds := by
  refine ⟨fun s => ⟨hostMove_wait_idle, hostMove_wait_busy⟩, fun s rest hw => ?_⟩
  obtain ⟨k, hk, hrun⟩ := EndsWithin.of_idle (Q := fun t => t.host = .wait :: rest)
    (fun _ _ => step_keeps_wait) (fun _ => wait_endsWithin_of_idle) hw
  refine ⟨k, by omega, hrun.imp_left ?_⟩
  rintro ⟨t, ht, hhost, hidle, r, hlast, hbit⟩
  exact ⟨t, r, ht, hhost, hidle, hlast, hbit⟩

end Sys2Proof.Machine
